-- ==== Sys2Proof/Word.lean ====
section
/-! DEFINITION. The two kinds of number the machine handles (00_scope.md R6 to R8).

A CELL is an `Int` in the signed range of CELL_WIDTH bits, a POINTER a `Nat` in the unsigned range of PTR_WIDTH
bits. R8 computes on mathematical integers and narrows only by an explicit check (`toCell`, `toPtr`), and nothing
is ever sliced into bits (R8, R56), so neither is a bit vector; that every cell and pointer of the state lies in
its range is part of the machine's invariant (Safety.lean). DESIGN CHOICE, log 1. -/

namespace Sys2Proof

/-- `2^(w-1)`, the size of each half of the signed range of `w` bits. -/
def signedHalf (w : Nat) : Nat := 2 ^ (w - 1)

/-- The least signed value of `w` bits. -/
def signedMin (w : Nat) : Int := -(signedHalf w : Int)

/-- The greatest signed value of `w` bits. -/
def signedMax (w : Nat) : Int := (signedHalf w : Int) - 1

/-- The greatest unsigned value of `w` bits. -/
def unsignedMax (w : Nat) : Nat := 2 ^ w - 1

end Sys2Proof
end

