-- ==== Sys2Proof/Config.lean ====
section
/-! DEFINITION. The implementation parameters of 00_scope.md R5 and the bounds derived from them. -/

namespace Sys2Proof

/-- OVERFLOW_MODE (R5, 92_eei_decisions.md D3): what a result outside the cell range does. -/
inductive OverflowMode where
  /-- raise ArithmeticOverflow: the value the spec fixes -/
  | fault
  /-- two's-complement reduction modulo `2^CELL_WIDTH` (R152) -/
  | wrap
deriving DecidableEq, Repr

/-- The parameters a CORE is built with (R5). -/
structure Params where
  /-- CELL_WIDTH, 64 or more (D1) -/
  cellWidth : Nat
  /-- PTR_WIDTH (D2) -/
  ptrWidth : Nat
  /-- OVERFLOW_MODE (D3) -/
  overflow : OverflowMode
deriving DecidableEq, Repr

/-- The values R5 fixes for this hardware. -/
def Params.standard : Params := ⟨64, 64, .fault⟩

/-- `2^(CELL_WIDTH-1)`. -/
def Params.cellHalf (p : Params) : Nat := signedHalf p.cellWidth

/-- `CELL_MIN = -2^(CELL_WIDTH-1)` (R5). -/
def Params.cellMin (p : Params) : Int := signedMin p.cellWidth

/-- `CELL_MAX = 2^(CELL_WIDTH-1) - 1` (R5). -/
def Params.cellMax (p : Params) : Int := signedMax p.cellWidth

/-- `PTR_MAX = 2^PTR_WIDTH - 1` (R5). -/
def Params.ptrMax (p : Params) : Nat := unsignedMax p.ptrWidth

/-- `v` is a cell value (R6). -/
abbrev Params.IsCell (p : Params) (v : Int) : Prop := p.cellMin ≤ v ∧ v ≤ p.cellMax

/-- `v` is a pointer (R7). -/
abbrev Params.IsPtr (p : Params) (v : Int) : Prop := 0 ≤ v ∧ v ≤ (p.ptrMax : Int)

/-- FREE VALUE: what an InputSource that follows no law known to the model answers to a pull, None or any cell
(42_io.md R164, 92_eei_decisions.md D22). `view` tells sources apart, `n` counts the pulls of one. No body: a claim
holds whatever the answers are. DESIGN CHOICE, log 24. -/
opaque freeAnswer (p : Params) (view n : Nat) : Option { v : Int // p.IsCell v }

/-- The admitted parameters: "a model may take any `CELL_WIDTH >= 64`" (R5, D1). -/
abbrev Params.Legal (p : Params) : Prop := 64 ≤ p.cellWidth

end Sys2Proof
end

