-- ==== Sys2Proof/Vocabulary.lean ====
section
/-! DEFINITION. The closed sets of names the spec gives: opcodes, addressing modes, parameters, errors. -/

namespace Sys2Proof

/-- The ten opcodes (30_encoding.md R82). -/
inductive Opcode where
  | add | mul | inp | out | jt | jf | lt | eq | arb | hlt
deriving DecidableEq, Repr

/-- The addressing modes (R84). -/
inductive Mode where
  | position | immediate | relative
deriving DecidableEq, Repr

/-- The two kinds of parameter (00_scope.md R12, "input parameter" and "output parameter"). -/
inductive ParamKind where
  | input | output
deriving DecidableEq, Repr

/-- A parameter: its mode and its whole raw cell (R84's tagged variant, R85). -/
inductive Param where
  /-- the cell is read as an address -/
  | position (r : Int)
  /-- the cell is the operand -/
  | immediate (r : Int)
  /-- the cell is an offset from the relative base -/
  | relative (r : Int)
deriving DecidableEq, Repr

/-- The tag of MemoryCellIsInvalidPointer: which use the integer had (60_exceptions.md R212). -/
inductive PtrUse where
  | param | operand | output | target | pc
deriving DecidableEq, Repr

/-- The errors (60_exceptions.md R211), each with what it records beside the pc (R213). -/
inductive Err where
  /-- code 1: the opcode cell -/
  | unknownOpCode (c : Int)
  /-- code 2: the opcode cell, the parameter's index from 1, the digit -/
  | unknownParameterType (c : Int) (i : Nat) (digit : Nat)
  /-- code 3: the opcode cell, the parameter's index from 1 -/
  | outputParameterInImmediateMode (c : Int) (i : Nat)
  /-- code 4: the address -/
  | readMemoryOutOfBounds (a : Nat)
  /-- code 5: the address -/
  | writeMemoryOutOfBounds (a : Nat)
  /-- code 6: the tag and the integer -/
  | memoryCellIsInvalidPointer (what : PtrUse) (v : Int)
  /-- code 7: the opcode; a self-check only (40_execution.md R139) -/
  | effectMismatch (op : Opcode)
  /-- code 8: the exact out-of-range result -/
  | arithmeticOverflow (v : Int)
deriving DecidableEq, Repr

end Sys2Proof
end

