-- ==== Sys2Proof/Syntax.lean ====
section
/-! DEFINITION. The instructions: one constructor per row of spec/opcode_table.json (30_encoding.md R82). -/

namespace Sys2Proof

/-- A decoded Operation: its opcode with its parameters in parameter order, the output last (R82). The digits
of the opcode cell that no parameter examines are not part of it (R91, R97). -/
inductive Instr where
  /-- ADD, opcode 1 (R150) -/
  | add (a b dst : Param)
  /-- MUL, opcode 2 (R151) -/
  | mul (a b dst : Param)
  /-- IN, opcode 3 (R160) -/
  | inp (dst : Param)
  /-- OUT, opcode 4 (R161) -/
  | out (v : Param)
  /-- JT, opcode 5 (R180) -/
  | jt (cond target : Param)
  /-- JF, opcode 6 (R181) -/
  | jf (cond target : Param)
  /-- LT, opcode 7 (R190) -/
  | lt (a b dst : Param)
  /-- EQ, opcode 8 (R191) -/
  | eq (a b dst : Param)
  /-- ARB, opcode 9 (R200) -/
  | arb (v : Param)
  /-- HLT, opcode 99 (R201) -/
  | hlt
deriving DecidableEq, Repr

end Sys2Proof
end

