-- ==== Sys2Proof/WellFormed.lean ====
section
/-! DEFINITION. Which instructions the encoding can express: every raw value is a cell, and no output parameter
is Immediate (30_encoding.md R85, R90). -/

namespace Sys2Proof

/-- The raw cell of a parameter (R85). -/
def Param.raw : Param → Int
  | .position r => r
  | .immediate r => r
  | .relative r => r

/-- The mode of a parameter (R84). -/
def Param.mode : Param → Mode
  | .position _ => .position
  | .immediate _ => .immediate
  | .relative _ => .relative

/-- An input parameter: any mode, a raw value in the cell range. -/
abbrev Param.InputOk (p : Params) (q : Param) : Prop := p.IsCell q.raw

/-- An output parameter: as an input parameter, and "an output-position parameter never decodes as
Immediate" (R90). -/
abbrev Param.OutputOk (p : Params) (q : Param) : Prop := p.IsCell q.raw ∧ q.mode ≠ .immediate

/-- The check on a whole instruction, a Bool so that it runs. -/
def Instr.wellFormed (p : Params) : Instr → Bool
  | .add a b dst => decide (a.InputOk p ∧ b.InputOk p ∧ dst.OutputOk p)
  | .mul a b dst => decide (a.InputOk p ∧ b.InputOk p ∧ dst.OutputOk p)
  | .inp dst => decide (dst.OutputOk p)
  | .out v => decide (v.InputOk p)
  | .jt cond target => decide (cond.InputOk p ∧ target.InputOk p)
  | .jf cond target => decide (cond.InputOk p ∧ target.InputOk p)
  | .lt a b dst => decide (a.InputOk p ∧ b.InputOk p ∧ dst.OutputOk p)
  | .eq a b dst => decide (a.InputOk p ∧ b.InputOk p ∧ dst.OutputOk p)
  | .arb v => decide (v.InputOk p)
  | .hlt => true

end Sys2Proof
end

