-- ==== Sys2Proof/Decode.lean ====
section
/-! DEFINITION. The decoder of 30_encoding.md R86 over a list of cells, the encoder of R97, and the host's entry
`decodeTableWord`. The machine's own fetch (Machine/Fetch.lean) uses the same opcode-cell decoder. -/

namespace Sys2Proof

/-! ### Decimal digits (00_scope.md R9) -/

/-- `dig(v, k)`, the k-th decimal digit from the units up, of a non-negative cell. -/
def dig (v : Int) (k : Nat) : Nat := v.toNat / 10 ^ k % 10

/-- `low2(v) = v mod 100`, of a non-negative cell. -/
def low2 (v : Int) : Nat := v.toNat % 100

/-! ### The opcode map (R82) -/

/-- The opcode number. -/
def Opcode.number : Opcode → Nat
  | .add => 1
  | .mul => 2
  | .inp => 3
  | .out => 4
  | .jt => 5
  | .jf => 6
  | .lt => 7
  | .eq => 8
  | .arb => 9
  | .hlt => 99

/-- The rows of the opcode map. -/
def Opcode.table : List Opcode := [.add, .mul, .inp, .out, .jt, .jf, .lt, .eq, .arb, .hlt]

/-- The opcode with a given number, where there is one: the others are illegal (R88). -/
def Opcode.ofNumber (n : Nat) : Option Opcode := Opcode.table.find? fun o => o.number == n

/-- The parameter list of an opcode, in parameter order (R82). -/
def Opcode.kinds : Opcode → List ParamKind
  | .add => [.input, .input, .output]
  | .mul => [.input, .input, .output]
  | .inp => [.output]
  | .out => [.input]
  | .jt => [.input, .input]
  | .jf => [.input, .input]
  | .lt => [.input, .input, .output]
  | .eq => [.input, .input, .output]
  | .arb => [.input]
  | .hlt => []

/-- The number of cells of the instruction: "1 + parameter count" (R96). -/
def Opcode.width (o : Opcode) : Nat := 1 + o.kinds.length

/-! ### Addressing modes (R84) -/

/-- The mode a digit selects; digits 3 to 9 select none (R89). -/
def Mode.ofDigit : Nat → Option Mode
  | 0 => some .position
  | 1 => some .immediate
  | 2 => some .relative
  | _ => none

/-- The digit of a mode. -/
def Mode.digit : Mode → Nat
  | .position => 0
  | .immediate => 1
  | .relative => 2

/-- The parameter a mode and a raw cell make (R85: the whole cell, nothing extracted). -/
def Mode.param : Mode → Int → Param
  | .position, r => .position r
  | .immediate, r => .immediate r
  | .relative, r => .relative r

/-! ### The opcode cell: phases 1 and 2 of R86 -/

/-- What the opcode cell says: the opcode, and one mode per parameter. -/
structure Head where
  opcode : Opcode
  modes : List Mode
deriving DecidableEq, Repr

/-- Phase 2 of R86: one mode digit per parameter, in parameter order from parameter `i` on; the first illegal
one is reported (R89, R90). -/
def checkModes (c : Int) : Nat → List ParamKind → Except Err (List Mode)
  | _, [] => .ok []
  | i, k :: ks =>
    match Mode.ofDigit (dig c (i + 1)) with
    | none => .error (.unknownParameterType c i (dig c (i + 1)))
    | some m =>
      if k = .output ∧ m = .immediate then .error (.outputParameterInImmediateMode c i)
      else
        match checkModes c (i + 1) ks with
        | .error e => .error e
        | .ok ms => .ok (m :: ms)

/-- Phases 1 and 2 of R86: a negative cell (R87) and a code outside the map (R88) are UnknownOpCode. -/
def decodeHead (c : Int) : Except Err Head :=
  if c < 0 then .error (.unknownOpCode c)
  else
    match Opcode.ofNumber (low2 c) with
    | none => .error (.unknownOpCode c)
    | some o =>
      match checkModes c 1 o.kinds with
      | .error e => .error e
      | .ok ms => .ok ⟨o, ms⟩

/-- The instruction an opcode and its parameters make. A parameter list that does not fit the opcode is the
decoder's own inconsistency, EffectMismatch (40_execution.md R139); `decodeHead` never gives one. -/
def assembleInstr : Opcode → List Param → Except Err Instr
  | .add, [a, b, dst] => .ok (.add a b dst)
  | .mul, [a, b, dst] => .ok (.mul a b dst)
  | .inp, [dst] => .ok (.inp dst)
  | .out, [v] => .ok (.out v)
  | .jt, [cond, target] => .ok (.jt cond target)
  | .jf, [cond, target] => .ok (.jf cond target)
  | .lt, [a, b, dst] => .ok (.lt a b dst)
  | .eq, [a, b, dst] => .ok (.eq a b dst)
  | .arb, [v] => .ok (.arb v)
  | .hlt, [] => .ok .hlt
  | o, _ => .error (.effectMismatch o)

/-! ### Decoding a list of cells -/

/-- Why a list of cells is no instruction. -/
inductive Reject where
  /-- the decode error of R86 -/
  | malformed (e : Err)
  /-- the list ends before the instruction does (in the machine the fetch then reads memory, R86 phase 3) -/
  | truncated
deriving DecidableEq, Repr

/-- Phase 3 of R86 over a list: one cell per mode. -/
def takeParams : List Mode → List Int → Option (List Param × List Int)
  | [], cs => some ([], cs)
  | _ :: _, [] => none
  | m :: ms, r :: cs =>
    match takeParams ms cs with
    | none => none
    | some (ps, rest) => some (m.param r :: ps, rest)

/-- The decoder: the instruction at the head of a list of cells, and the cells after it. -/
def decode : List Int → Except Reject (Instr × List Int)
  | [] => .error .truncated
  | c :: cs =>
    match decodeHead c with
    | .error e => .error (.malformed e)
    | .ok h =>
      match takeParams h.modes cs with
      | none => .error .truncated
      | some (ps, rest) =>
        match assembleInstr h.opcode ps with
        | .error e => .error (.malformed e)
        | .ok i => .ok (i, rest)

/-! ### Encoding (R97, R98) -/

/-- The opcode of an instruction. -/
def Instr.opcode : Instr → Opcode
  | .add .. => .add
  | .mul .. => .mul
  | .inp .. => .inp
  | .out .. => .out
  | .jt .. => .jt
  | .jf .. => .jf
  | .lt .. => .lt
  | .eq .. => .eq
  | .arb .. => .arb
  | .hlt => .hlt

/-- The parameters of an instruction, in parameter order. -/
def Instr.operands : Instr → List Param
  | .add a b dst => [a, b, dst]
  | .mul a b dst => [a, b, dst]
  | .inp dst => [dst]
  | .out v => [v]
  | .jt cond target => [cond, target]
  | .jf cond target => [cond, target]
  | .lt a b dst => [a, b, dst]
  | .eq a b dst => [a, b, dst]
  | .arb v => [v]
  | .hlt => []

/-- The output parameter of an instruction, where it has one: "the output parameter, where there is one, is the
last" (R82). -/
def Instr.outputParam : Instr → Option Param
  | .add _ _ dst => some dst
  | .mul _ _ dst => some dst
  | .inp dst => some dst
  | .out _ => none
  | .jt _ _ => none
  | .jf _ _ => none
  | .lt _ _ dst => some dst
  | .eq _ _ dst => some dst
  | .arb _ => none
  | .hlt => none

/-- The number of cells of an instruction (R96). -/
def Instr.width (i : Instr) : Nat := i.opcode.width

/-- `M1 + 10*M2 + 100*M3`, the mode digits as a number. -/
def modeDigits : List Param → Nat
  | [] => 0
  | q :: qs => q.mode.digit + 10 * modeDigits qs

/-- The shortest opcode cell, `OP + 100*M1 + 1000*M2 + 10000*M3` (R97). -/
def Instr.opcodeCell (i : Instr) : Nat := i.opcode.number + 100 * modeDigits i.operands

/-- The cells of an instruction: the opcode cell, then the raw values in parameter order (R98). -/
def encode (i : Instr) : List Int := (i.opcodeCell : Int) :: i.operands.map Param.raw

/-! ### The host's words

The table numbers bits from the least significant bit of the first word; a word is a cell of 64 bits here, read as
a signed two's-complement integer (R5, R6). DESIGN CHOICE, log 14. -/

/-- The cell a 64-bit word stands for. -/
def cellOfWord (w : Nat) : Int := (BitVec.ofNat 64 w).toInt

/-- The first `n` cells of the words numbered as one natural number. -/
def cellsOfWords : Nat → Nat → List Int
  | 0, _ => []
  | n + 1, w => cellOfWord w :: cellsOfWords n (w / 2 ^ 64)

/-- The cells of a table row's words: four, the longest instruction, every bit from `nbits` up being 0. -/
def tableCells (nbits w : Nat) : List Int := cellsOfWords 4 (w % 2 ^ nbits)

/-- The instruction the decoder reads from an opcode-table row's bits. -/
def decodeTableWord (nbits w : Nat) : Option Instr :=
  match decode (tableCells nbits w) with
  | .error _ => none
  | .ok (i, _) => some i

/-- The words of a list of cells as one number, the first word lowest; the other direction of `cellsOfWords`. -/
def wordsOfCells : List Int → Nat
  | [] => 0
  | c :: cs => (BitVec.ofInt 64 c).toNat + 2 ^ 64 * wordsOfCells cs

end Sys2Proof
end

