-- ==== Sys2Proof/Machine/State.lean ====
section
/-! DEFINITION. The state of one CORE (10_state.md R20), the reasons a step could stop, and the state after
construction (R32). -/

namespace Sys2Proof.Machine

/-- STATUS (R27). -/
inductive Status where
  /-- 0: the next cycle decodes the instruction at `pc` -/
  | running
  /-- 1: the last cycle was an Input with no value available -/
  | waitingOnInput
  /-- 2: a Halt executed; terminal -/
  | halted
  /-- 3: a fatal error was raised; terminal -/
  | faulted
deriving DecidableEq, Repr

/-- What ERR holds (R28, 60_exceptions.md R213): the pc of the faulting instruction and the error. -/
structure ErrRecord where
  pc : Nat
  err : Err
deriving DecidableEq, Repr

/-- A finite partial map from pointers to cells (R20, EXT): pairs with strictly rising addresses. An address
that is not listed holds no entry, so a listed one, 0 included (20_memory.md R54), always differs from it. -/
abbrev Memory := List (Nat × Int)

/-- What an InputSource answers when nothing is queued (42_io.md R164). DESIGN CHOICE, log 5. -/
inductive SourceRest where
  /-- a queue source: None, as long as the queue stays empty -/
  | silent
  /-- a live view of something that does not change between two commands of the driver: this answer, every time -/
  | steady (a : Option Int)
  /-- any other source, one that follows the CORE's own outputs for one: the `n`th free draw of source `view`
  (`freeAnswer`; log 24) -/
  | draws (view n : Nat)
deriving DecidableEq, Repr

/-- An InputSource (42_io.md R164): answers to the coming pulls, oldest first, each None or a cell; then `rest`. -/
structure InputSource where
  queue : List (Option Int)
  rest : SourceRest
deriving DecidableEq, Repr

/-- A queue source that holds nothing. -/
def InputSource.empty : InputSource := ⟨[], .silent⟩

/-- The state. The first seven fields are the spec's (R20), the last three the model's own (configuration and
devices, see INVENTORY.md). -/
structure State where
  /-- BASE, the loaded image region; its length is N (R30) -/
  base : List Int
  /-- EXT, the sparse extension (R30) -/
  ext : Memory
  /-- EXT_EN (R29) -/
  extEn : Bool
  /-- the program counter (R22) -/
  pc : Nat
  /-- the relative base (R25) -/
  rb : Int
  /-- STATUS (R27) -/
  status : Status
  /-- ERR (R28) -/
  err : Option ErrRecord
  /-- the construction parameters (00_scope.md R5); DESIGN CHOICE, log 3 -/
  params : Params
  /-- the InputSource the driver supplied (42_io.md R164); DESIGN CHOICE, log 5 -/
  source : InputSource
  /-- the values pushed to the OutputSink, oldest first (42_io.md R163); DESIGN CHOICE, log 6 -/
  sink : List Int
deriving DecidableEq, Repr

/-- The length N of the base region (R30): configuration, fixed at construction. -/
abbrev State.imageLength (s : State) : Nat := s.base.length

/-- Stops outside the state: none. Every error of 60_exceptions.md R211 is taken as the entry R214 describes,
a next state with STATUS = Faulted, so no definition raises a `Fault` and the type has no constructor (safe:
nothing is hidden behind a stop). DEDUCED, log 10. -/
inductive Fault where
deriving DecidableEq, Repr

/-- Reasons to refuse an instruction. -/
inductive Refusal where
  /-- an instruction `exec` gives no meaning; raised by no arm, since every opcode has its meaning (safe) -/
  | notModelled (mnemonic : String)
deriving DecidableEq, Repr

/-- Construction with a given image and devices (R32, 40_execution.md R132, 70_reset_and_hazards.md R240):
everything but the image, the parameters and the devices takes its reset value. -/
def State.construct (p : Params) (image : List Int) (source : InputSource) : State where
  base := image
  ext := []
  extEn := false
  pc := 0
  rb := 0
  status := .running
  err := none
  params := p
  source := source
  sink := []

/-- The machine right after reset with nothing placed in it: R5's parameters, the empty image (N = 0), a
queue with nothing in it as InputSource (log 5). A program comes from outside, by construction with its image.
DESIGN CHOICE, log 7. -/
def State.reset : State := State.construct Params.standard [] .empty

end Sys2Proof.Machine
end

