-- ==== Sys2Proof/Machine/Ops.lean ====
section
/-! DEFINITION. The named operations over memory, registers and the two devices, and fault entry. -/

namespace Sys2Proof.Machine

/-! ### The sparse map EXT -/

/-- The entry of a map at an address, where it has one. -/
def Memory.lookup : Memory → Nat → Option Int
  | [], _ => none
  | (k, v) :: m, a => if a = k then some v else Memory.lookup m a

/-- Creates or replaces the entry at an address, whatever the value is (20_memory.md R54; DEDUCED,
log 4). -/
def Memory.insert : Memory → Nat → Int → Memory
  | [], a, v => [(a, v)]
  | (k, w) :: m, a, v =>
    if a < k then (a, v) :: (k, w) :: m
    else if a = k then (a, v) :: m
    else (k, w) :: Memory.insert m a v

/-- The canonical form: addresses strictly rising, so that equal maps are equal lists. -/
abbrev Memory.wf (m : Memory) : Prop := m.Pairwise fun x y => x.1 < y.1

/-- What an address reads as when the map holds no entry there (R52, R53). -/
def unlistedCell : Int := 0

/-! ### Narrowing (00_scope.md R10) -/

/-- `toPtr(v, what)`: a pointer, or MemoryCellIsInvalidPointer (60_exceptions.md R212). -/
def toPtr (p : Params) (what : PtrUse) (v : Int) : Except Err Nat :=
  if p.IsPtr v then .ok v.toNat else .error (.memoryCellIsInvalidPointer what v)

/-- The value `OVERFLOW_MODE = wrap` gives: the `w` of the cell range with `w ≡ v (mod 2^CELL_WIDTH)`
(41_arithmetic.md R152). -/
def wrapCell (p : Params) (v : Int) : Int :=
  (v + (p.cellHalf : Int)) % ((2 * p.cellHalf : Nat) : Int) - (p.cellHalf : Int)

/-- `toCell(v)` (R152). -/
def toCell (p : Params) (v : Int) : Except Err Int :=
  if p.IsCell v then .ok v
  else
    match p.overflow with
    | .fault => .error (.arithmeticOverflow v)
    | .wrap => .ok (wrapCell p v)

/-! ### Memory access (20_memory.md R53, R54) -/

/-- `MemRead(a)` (R53). -/
def State.memRead (s : State) (a : Nat) : Except Err Int :=
  match s.base[a]? with
  | some v => .ok v
  | none =>
    if s.extEn then .ok ((s.ext.lookup a).getD unlistedCell)
    else .error (.readMemoryOutOfBounds a)

/-- The address can be accessed: in the base region, or the extension is enabled (R52). -/
abbrev State.Accessible (s : State) (a : Nat) : Prop := a < s.imageLength ∨ s.extEn = true

/-- The store of a cell at an accessible address: BASE below N, EXT from N up (R54). -/
def State.store (s : State) (a : Nat) (v : Int) : State :=
  { s with
    base := s.base.set a v
    ext := if a < s.imageLength then s.ext else s.ext.insert a v }

/-- `MemWrite(a, v)` (R54). -/
def State.memWrite (s : State) (a : Nat) (v : Int) : Except Err State :=
  if s.Accessible a then .ok (s.store a v) else .error (.writeMemoryOutOfBounds a)

/-! ### Registers and devices -/

/-- `pc <- p`. -/
def State.withPc (s : State) (p : Nat) : State := { s with pc := p }

/-- `rb <- v`. -/
def State.withRb (s : State) (v : Int) : State := { s with rb := v }

/-- `STATUS <- st`. -/
def State.withStatus (s : State) (st : Status) : State := { s with status := st }

/-- The answer a source gives the next pull (42_io.md R162, R164). -/
def InputSource.answer (p : Params) : InputSource → Option Int
  | ⟨a :: _, _⟩ => a
  | ⟨[], .silent⟩ => none
  | ⟨[], .steady a⟩ => a
  | ⟨[], .draws view n⟩ => (freeAnswer p view n).map Subtype.val

/-- The source after a pull: a queued answer is removed and not offered again (R162, R164). -/
def InputSource.pulled : InputSource → InputSource
  | ⟨_ :: as, r⟩ => ⟨as, r⟩
  | ⟨[], .silent⟩ => ⟨[], .silent⟩
  | ⟨[], .steady a⟩ => ⟨[], .steady a⟩
  | ⟨[], .draws view n⟩ => ⟨[], .draws view (n + 1)⟩

/-- The source after `n` pulls. -/
def InputSource.pulledTimes (src : InputSource) : Nat → InputSource
  | 0 => src
  | n + 1 => (src.pulled).pulledTimes n

/-- The driver enqueues a value (40_execution.md R134): it is offered after everything queued before. -/
def InputSource.enqueue (src : InputSource) (v : Int) : InputSource := { src with queue := src.queue ++ [some v] }

/-- Every value the source is known to offer is a cell (92_eei_decisions.md D21; the free draws are by their type). -/
abbrev InputSource.Cells (p : Params) (src : InputSource) : Prop :=
  (∀ v, some v ∈ src.queue → p.IsCell v) ∧ (∀ v, src.rest = .steady (some v) → p.IsCell v)

/-- `InputPull()`'s answer (R162). -/
def State.answer (s : State) : Option Int := s.source.answer s.params

/-- The devices after a pull (R162). -/
def State.pull (s : State) : State := { s with source := s.source.pulled }

/-- `OutputPush(v)` (R163): always accepted. -/
def State.push (s : State) (v : Int) : State := { s with sink := s.sink ++ [v] }

/-- FAULT ENTRY (60_exceptions.md R214): STATUS and ERR are written, nothing else. There is no return from it
(R217): no operation of the machine leaves Faulted. -/
def State.faultEntry (s : State) (e : Err) : State :=
  { s with status := .faulted, err := some ⟨s.pc, e⟩ }

/-! ### The effects of an instruction and their commit (40_execution.md R120, R123) -/

/-- The action of a `Go` effect (R120). -/
inductive CommitAction where
  | nothing
  | memWrite (dst : Nat) (v : Int)
  | outputPush (v : Int)
  | setRb (v : Int)
deriving DecidableEq, Repr

/-- What `Operate` answers (R120). -/
inductive Effect where
  /-- Input with no value -/
  | wait
  /-- Halt -/
  | stop
  /-- an action, then the next pc, an exact integer checked under the tag `which` -/
  | go (action : CommitAction) (next : Int) (which : PtrUse)
deriving DecidableEq, Repr

/-- Step 8 of R121: the action, of which only the memory write can raise. -/
def State.perform (s : State) : CommitAction → Except Err State
  | .nothing => .ok s
  | .memWrite dst v => s.memWrite dst v
  | .outputPush v => .ok (s.push v)
  | .setRb v => .ok (s.withRb v)

/-- Steps 7 to 9 of R121 for a `Go` effect: the pointer check of the next pc, the action, the pc write. -/
def State.advance (s : State) (action : CommitAction) (next : Int) (which : PtrUse) : Except Err State :=
  (toPtr s.params which next).bind fun p =>
  (s.perform action).bind fun s' => .ok (s'.withPc p)

/-- The end of a cycle: the effect is committed whole (R122), and an error raised anywhere is taken by fault
entry on the state as it stood, a pulled input value excepted (R214, R215). -/
def State.finish (s : State) : Except Err Effect → State
  | .error e => s.faultEntry e
  | .ok .wait => s.withStatus .waitingOnInput
  | .ok .stop => s.withStatus .halted
  | .ok (.go action next which) =>
    match s.advance action next which with
    | .error e => s.faultEntry e
    | .ok s' => s'

/-! ### Placing an instruction for the host -/

/-- Puts one cell at an address: by the machine's own store where it can be accessed, else by a longer image
(zero cells up to the address), as loading a longer image would. -/
def State.place (s : State) (a : Nat) (v : Int) : State :=
  if s.Accessible a then s.store a v
  else { s with base := s.base ++ List.replicate (a - s.imageLength) 0 ++ [v] }

/-- Puts cells at consecutive addresses. -/
def State.placeAll (s : State) (a : Nat) : List Int → State
  | [] => s
  | v :: vs => (s.place a v).placeAll (a + 1) vs

end Sys2Proof.Machine
end

