-- ==== Sys2Proof/Machine/Flags.lean ====
section
/-! DEFINITION. The CORE has no arithmetic flags (10_state.md R26): the halted flag, the cells a comparison writes,
the conditions of the jumps, and the host's view of the status bits (R29). -/

namespace Sys2Proof.Machine

/-- The halted flag: exactly STATUS = Halted (R26). -/
def State.haltedFlag (s : State) : Bool := s.status == .halted

/-- The 2-bit number of a STATUS value (R27). -/
def Status.code : Status → BitVec 2
  | .running => 0
  | .waitingOnInput => 1
  | .halted => 2
  | .faulted => 3

/-- CTRL: bit 0 is EXT_EN (R29). -/
def State.ctrl (s : State) : BitVec 1 := BitVec.ofBool s.extEn

/-- The cell a comparison writes: 1 or 0 (44_compare.md R190 to R192). -/
def truthCell (b : Bool) : Int := if b then 1 else 0

/-- LessThan's result: signed, parameter 1 less than parameter 2 (R190). -/
def lessThan (a b : Int) : Int := truthCell (decide (a < b))

/-- Equals' result (R191). -/
def equals (a b : Int) : Int := truthCell (decide (a = b))

/-- JumpIfTrue takes the jump: any non-zero condition (43_jump.md R180). -/
def takenIfTrue (cond : Int) : Bool := decide (cond ≠ 0)

/-- JumpIfFalse takes the jump (R181). -/
def takenIfFalse (cond : Int) : Bool := decide (cond = 0)

end Sys2Proof.Machine
end

