-- ==== Sys2Proof/Machine/Operands.lean ====
section
/-! DEFINITION. Parameter resolution (30_encoding.md R93 to R95) and the shapes `Operate` has over it
(40_execution.md R120, R121 steps 4 to 6). -/

namespace Sys2Proof.Machine

/-- `ResolveIn` (R93): the operand of an input parameter. -/
def State.resolveIn (s : State) : Param → Except Err Int
  | .immediate r => .ok r
  | .position r => (toPtr s.params .operand r).bind s.memRead
  | .relative r => (toPtr s.params .operand (s.rb + r)).bind s.memRead

/-- `ResolveOut` (R94): the address of an output parameter. An Immediate output never comes from the decoder
(R90); executed all the same, it is the self-check EffectMismatch of 40_execution.md R139 (DEDUCED, log 11). -/
def State.resolveOut (s : State) (op : Opcode) : Param → Except Err Nat
  | .immediate _ => .error (.effectMismatch op)
  | .position r => toPtr s.params .output r
  | .relative r => toPtr s.params .output (s.rb + r)

/-- The address after an instruction of opcode `op`: `pc + width`, exact (10_state.md R23). -/
def State.nextPc (s : State) (op : Opcode) : Int := (s.pc : Int) + (op.width : Int)

/-- Two inputs, a result written to the output address, normal advance: Add, Multiply, LessThan, Equals
("resolve both input operands, write the computed result to the output address"). -/
def State.operateToMemory (s : State) (op : Opcode) (a b dst : Param)
    (alu : Int → Int → Except Err Int) : Except Err Effect :=
  (s.resolveIn a).bind fun x =>
  (s.resolveIn b).bind fun y =>
  (s.resolveOut op dst).bind fun d =>
  (alu x y).bind fun r =>
  .ok (.go (.memWrite d r) (s.nextPc op) .pc)

/-- Condition and target; the target replaces the normal advance when the jump is taken, and is checked only
then (43_jump.md R182). -/
def State.operateJump (s : State) (op : Opcode) (cond target : Param)
    (taken : Int → Bool) : Except Err Effect :=
  (s.resolveIn cond).bind fun c =>
  (s.resolveIn target).bind fun t =>
  .ok (if taken c then .go .nothing t .target else .go .nothing (s.nextPc op) .pc)

/-- One input, an action made from it, normal advance: Output, AdjustRelativeBase. -/
def State.operateOnValue (s : State) (op : Opcode) (v : Param)
    (action : Int → Except Err CommitAction) : Except Err Effect :=
  (s.resolveIn v).bind fun x =>
  (action x).bind fun act =>
  .ok (.go act (s.nextPc op) .pc)

end Sys2Proof.Machine
end

