-- ==== Sys2Proof/Machine/Arithmetic.lean ====
section
/-! DEFINITION. Add and Multiply (41_arithmetic.md). -/

namespace Sys2Proof.Machine

/-- Add (R150): the exact sum through `toCell` (R152). -/
def execAdd (a b dst : Param) (s : State) : Host.Outcome State Fault Refusal :=
  .next (s.finish (s.operateToMemory .add a b dst fun x y => toCell s.params (x + y)))

/-- Multiply (R151): the exact signed product through `toCell` (R152). -/
def execMul (a b dst : Param) (s : State) : Host.Outcome State Fault Refusal :=
  .next (s.finish (s.operateToMemory .mul a b dst fun x y => toCell s.params (x * y)))

end Sys2Proof.Machine
end

