-- ==== Sys2Proof/Machine/BaseAndHalt.lean ====
section
/-! DEFINITION. AdjustRelativeBase and Halt (45_base_and_halt.md). -/

namespace Sys2Proof.Machine

/-- AdjustRelativeBase (R200): the exact sum of `rb` and the operand through `toCell`. -/
def execArb (v : Param) (s : State) : Host.Outcome State Fault Refusal :=
  .next (s.finish (s.operateOnValue .arb v fun x => (toCell s.params (s.rb + x)).map .setRb))

/-- Halt (R201): STATUS <- Halted, the pc stays. -/
def execHlt (s : State) : Host.Outcome State Fault Refusal :=
  .next (s.finish (.ok .stop))

end Sys2Proof.Machine
end

