-- ==== Sys2Proof/Machine/Compare.lean ====
section
/-! DEFINITION. LessThan and Equals (44_compare.md). -/

namespace Sys2Proof.Machine

/-- LessThan (R190). -/
def execLt (a b dst : Param) (s : State) : Host.Outcome State Fault Refusal :=
  .next (s.finish (s.operateToMemory .lt a b dst fun x y => .ok (lessThan x y)))

/-- Equals (R191). -/
def execEq (a b dst : Param) (s : State) : Host.Outcome State Fault Refusal :=
  .next (s.finish (s.operateToMemory .eq a b dst fun x y => .ok (equals x y)))

end Sys2Proof.Machine
end

