-- ==== Sys2Proof/Machine/InputOutput.lean ====
section
/-! DEFINITION. Input and Output (42_io.md). -/

namespace Sys2Proof.Machine

/-- Input (R160): the output address first, then one pull; no value waits, a value is written and the pc
advances. What an error after the pull leaves: the value is consumed, by a write fault (60_exceptions.md
R215) and by a pc past PTR_MAX (DEDUCED, log 12). -/
def execInp (dst : Param) (s : State) : Host.Outcome State Fault Refusal :=
  .next (match s.resolveOut .inp dst with
    | .error e => s.faultEntry e
    | .ok d =>
      s.pull.finish (.ok (match s.answer with
        | none => .wait
        | some v => .go (.memWrite d v) (s.nextPc .inp) .pc)))

/-- Output (R161): the resolved operand is pushed. -/
def execOut (v : Param) (s : State) : Host.Outcome State Fault Refusal :=
  .next (s.finish (s.operateOnValue .out v fun x => .ok (.outputPush x)))

end Sys2Proof.Machine
end

