-- ==== Sys2Proof/Machine/Jump.lean ====
section
/-! DEFINITION. JumpIfTrue and JumpIfFalse (43_jump.md). -/

namespace Sys2Proof.Machine

/-- JumpIfTrue (R180). -/
def execJt (cond target : Param) (s : State) : Host.Outcome State Fault Refusal :=
  .next (s.finish (s.operateJump .jt cond target takenIfTrue))

/-- JumpIfFalse (R181). -/
def execJf (cond target : Param) (s : State) : Host.Outcome State Fault Refusal :=
  .next (s.finish (s.operateJump .jf cond target takenIfFalse))

end Sys2Proof.Machine
end

