-- ==== Sys2Proof/Machine/Cycle.lean ====
section
/-! DEFINITION. The fetch and decode of R86 against memory, and one cycle, `Step()` of 40_execution.md R120. -/

namespace Sys2Proof.Machine

/-- Phase 3 of R86: the parameter cells from parameter `i` on, in parameter order. -/
def State.fetchParams (s : State) : Nat → List Mode → Except Err (List Param)
  | _, [] => .ok []
  | i, m :: ms =>
    (toPtr s.params .param ((s.pc : Int) + (i : Int))).bind fun a =>
    (s.memRead a).bind fun r =>
    (s.fetchParams (i + 1) ms).bind fun ps => .ok (m.param r :: ps)

/-- `Decode()` (R86): the opcode cell, its modes, then the parameter cells. -/
def State.fetchDecode (s : State) : Except Err Instr :=
  (s.memRead s.pc).bind fun c =>
  (decodeHead c).bind fun h =>
  (s.fetchParams 1 h.modes).bind fun ps => assembleInstr h.opcode ps

/-- One cycle of a Running CORE (R120): decode, then execute; a decode error is taken by fault entry. -/
def State.cycle (s : State) : Host.Outcome State Fault Refusal :=
  match s.fetchDecode with
  | .error e => .next (s.faultEntry e)
  | .ok i => exec i s

/-- The STATUS guard around a cycle. Halted and Faulted are inert (R127, R129;
DEDUCED, log 9). A step in WaitingOnInput stands
for the host's next `resume()`: it sets Running and retries the Input from its fetch (R128; DEDUCED, log 8). -/
def State.stepByStatus (s : State) : Host.Outcome State Fault Refusal :=
  match s.status with
  | .running => s.cycle
  | .waitingOnInput => (s.withStatus .running).cycle
  | .halted => .next s
  | .faulted => .next s

/-- The state with an instruction's cells at `pc` and the CORE Running, so that the next step fetches it. -/
def State.withInstructionAtPc (s : State) (cells : List Int) : State :=
  { s.placeAll s.pc cells with status := .running, err := none }

end Sys2Proof.Machine
end

