-- ==== Sys2Proof/Machine/Step.lean ====
section
/-! DEFINITION. One step of the machine, and the host's way to place an instruction. -/

namespace Sys2Proof.Machine

/-- One step: one cycle of 40_execution.md R120, under the STATUS rules of R127 to R129. -/
def step (s : State) : Host.Outcome State Fault Refusal := s.stepByStatus

/-- `s` with a table row's cells where `step` fetches next: at `pc`, STATUS = Running, ERR empty. It stands for
the load of an image (DESIGN CHOICE, log 7). -/
def State.withFetchWord (s : State) (nbits w : Nat) : State :=
  s.withInstructionAtPc (tableCells nbits w)

end Sys2Proof.Machine
end

