-- ==== Sys2Proof/Machine/Assembly.lean ====
section
/-! DEFINITION. The assembly notation of 30_encoding.md R98 and the cells a listing stands for. -/

namespace Sys2Proof

/-- An operand as R98 writes it. -/
def Param.asm : Param → String
  | .position r => "[" ++ toString r ++ "]"
  | .immediate r => "#" ++ toString r
  | .relative r => "rb[" ++ toString r ++ "]"

/-- An instruction as R98 writes it: the output parameter after `->`. -/
def Instr.asm : Instr → String
  | .add a b dst => "ADD " ++ a.asm ++ ", " ++ b.asm ++ " -> " ++ dst.asm
  | .mul a b dst => "MUL " ++ a.asm ++ ", " ++ b.asm ++ " -> " ++ dst.asm
  | .inp dst => "IN -> " ++ dst.asm
  | .out v => "OUT " ++ v.asm
  | .jt cond target => "JT " ++ cond.asm ++ ", " ++ target.asm
  | .jf cond target => "JF " ++ cond.asm ++ ", " ++ target.asm
  | .lt a b dst => "LT " ++ a.asm ++ ", " ++ b.asm ++ " -> " ++ dst.asm
  | .eq a b dst => "EQ " ++ a.asm ++ ", " ++ b.asm ++ " -> " ++ dst.asm
  | .arb v => "ARB " ++ v.asm
  | .hlt => "HLT"

/-- A line of a listing (R98). -/
inductive AsmLine where
  | instr (i : Instr)
  /-- `DATA v1, v2, …` -/
  | data (vs : List Int)
deriving DecidableEq, Repr

/-- The image of a listing: the encodings, and the DATA cells verbatim (R98). -/
def assembleListing : List AsmLine → List Int
  | [] => []
  | .instr i :: ls => encode i ++ assembleListing ls
  | .data vs :: ls => vs ++ assembleListing ls

end Sys2Proof
end

