-- ==== Sys2Proof/Machine/Errors.lean ====
section
/-! DEFINITION. The numbers and classes of the errors (60_exceptions.md R210, R211). -/

namespace Sys2Proof

/-- The numeric code of an error (R211). -/
def Err.code : Err → Nat
  | .unknownOpCode _ => 1
  | .unknownParameterType _ _ _ => 2
  | .outputParameterInImmediateMode _ _ => 3
  | .readMemoryOutOfBounds _ => 4
  | .writeMemoryOutOfBounds _ => 5
  | .memoryCellIsInvalidPointer _ _ => 6
  | .effectMismatch _ => 7
  | .arithmeticOverflow _ => 8

/-- The classes of errors (R210, R211). -/
inductive ErrClass where
  | malformedProgram | addressing | internalGuard | arithmetic
deriving DecidableEq, Repr

/-- The class of an error (R211). -/
def Err.errClass : Err → ErrClass
  | .unknownOpCode _ => .malformedProgram
  | .unknownParameterType _ _ _ => .malformedProgram
  | .outputParameterInImmediateMode _ _ => .malformedProgram
  | .readMemoryOutOfBounds _ => .addressing
  | .writeMemoryOutOfBounds _ => .addressing
  | .memoryCellIsInvalidPointer _ _ => .addressing
  | .effectMismatch _ => .internalGuard
  | .arithmeticOverflow _ => .arithmetic

end Sys2Proof
end

