-- ==== Sys2Proof/Machine/HostInterface.lean ====
section
/-! DEFINITION. The host's commands on one CORE (40_execution.md R125 to R138) beside `new`
(`State.construct`). Each is a function on State; `step` is the only transition of the CORE itself. -/

namespace Sys2Proof.Machine

/-- What `resume()` returns (R126). `Error(ERR)` carries ERR as it stands. -/
inductive ResumeResult where
  | waitingOnInput
  | halt
  | error (e : Option ErrRecord)
deriving DecidableEq, Repr

/-- The result a cycle that ended in this state returns; none is `Continue` (R120). -/
def State.cycleResult (s : State) : Option ResumeResult :=
  match s.status with
  | .running => none
  | .waitingOnInput => some .waitingOnInput
  | .halted => some .halt
  | .faulted => some (.error s.err)

/-- `resume()` (R125): cycles until one returns something else than `Continue`. The fuel bounds the number of
cycles; none says that the run has not ended within it (R130, 93_implementation_defined.md U10; DESIGN CHOICE,
log 13). The
first step of a waiting CORE sets Running (R128). -/
def State.resume : Nat → State → Option (ResumeResult × State)
  | 0, _ => none
  | n + 1, s =>
    match step s with
    | .next t =>
      match t.cycleResult with
      | none => State.resume n t
      | some r => some (r, t)
    | .fault _ => none
    | .refused _ => none

/-- What `run_until_halt()` returns (R131). -/
inductive RunResult where
  | ok
  | error (e : Option ErrRecord)
  /-- the host-level misuse error -/
  | inputRequired
deriving DecidableEq, Repr

/-- R131's reading of a `resume()` result. -/
def ResumeResult.toRunResult : ResumeResult → RunResult
  | .halt => .ok
  | .error e => .error e
  | .waitingOnInput => .inputRequired

/-- `run_until_halt()` (R131): one `resume()`, the CORE left as it left it. -/
def State.runUntilHalt (fuel : Nat) (s : State) : Option (RunResult × State) :=
  (s.resume fuel).map fun x => (x.1.toRunResult, x.2)

/-- `enable_extra_memory()` (R135). -/
def State.enableExtraMemory (s : State) : State := { s with extEn := true }

/-- `read_memory(a)` (R136; DESIGN CHOICE, log 20). -/
def State.readMemory (s : State) (a : Nat) : Except Err Int := s.memRead a

/-- The driver enqueues a value in a queue InputSource (R134). -/
def State.enqueueInput (s : State) (v : Int) : State := { s with source := s.source.enqueue v }

/-- The driver makes the InputSource answer anything from now on, a live view for one (R134, 42_io.md R164). -/
def State.driveSource (s : State) (source : InputSource) : State := { s with source := source }

/-- The driver drains the OutputSink (R134; the three handle commands are a DESIGN CHOICE, log 23). -/
def State.drainOutput (s : State) : List Int × State := (s.sink, { s with sink := [] })

/-- The commands on a constructed CORE: "No other host command exists" (R133, R137). -/
inductive HostCommand where
  | enableExtraMemory
  | resume
  | runUntilHalt
  | readMemory (a : Nat)
  | enqueueInput (v : Int)
  | driveSource (source : InputSource)
  | drainOutput
deriving DecidableEq, Repr

/-- What a command answers. -/
inductive HostReply where
  | done
  | resumed (r : ResumeResult)
  | ran (r : RunResult)
  | cell (v : Int)
  | readError (e : Err)
  | drained (vs : List Int)
deriving DecidableEq, Repr

/-- One host command; the fuel is for the two that run the CORE. -/
def State.hostCommand (fuel : Nat) (s : State) : HostCommand → Option (HostReply × State)
  | .enableExtraMemory => some (.done, s.enableExtraMemory)
  | .resume => (s.resume fuel).map fun x => (.resumed x.1, x.2)
  | .runUntilHalt => (s.runUntilHalt fuel).map fun x => (.ran x.1, x.2)
  | .readMemory a =>
    match s.readMemory a with
    | .ok v => some (.cell v, s)
    | .error e => some (.readError e, s)
  | .enqueueInput v => some (.done, s.enqueueInput v)
  | .driveSource source => some (.done, s.driveSource source)
  | .drainOutput => some (.drained s.drainOutput.1, s.drainOutput.2)

end Sys2Proof.Machine
end

