-- ==== Sys2Proof/Machine/Image.lean ====
section
/-! DEFINITION. The program image format (30_encoding.md R100): from text to the cells of BASE. -/

namespace Sys2Proof.Machine

/-- White space: spaces, tabs and line breaks (R100; DEDUCED, log 16). -/
def isImageSpace (c : Char) : Bool := c == ' ' || c == '\t' || c == '\n' || c == '\r'

/-- The value of a decimal digit, where the character is one. -/
def digitValue (c : Char) : Option Nat :=
  if 48 ≤ c.toNat ∧ c.toNat ≤ 57 then some (c.toNat - 48) else none

/-- Decimal digits continued from a value read so far; any other character rejects. -/
def parseDigits : Nat → List Char → Option Nat
  | n, [] => some n
  | n, c :: cs =>
    match digitValue c with
    | none => none
    | some d => parseDigits (10 * n + d) cs

/-- One or more decimal digits. -/
def parseNatural : List Char → Option Nat
  | [] => none
  | c :: cs => parseDigits 0 (c :: cs)

/-- An optional `-`, then one or more decimal digits. -/
def parseInteger : List Char → Option Int
  | '-' :: cs => (parseNatural cs).map fun (n : Nat) => -(n : Int)
  | cs => (parseNatural cs).map fun (n : Nat) => (n : Int)

/-- An item without the white space before and after it. -/
def trimItem (cs : List Char) : List Char :=
  ((cs.dropWhile isImageSpace).reverse.dropWhile isImageSpace).reverse

/-- The items between the commas: one more than there are commas. -/
def splitItems : List Char → List (List Char)
  | [] => [[]]
  | c :: cs =>
    if c == ',' then [] :: splitItems cs
    else
      match splitItems cs with
      | [] => [[c]]
      | item :: items => (c :: item) :: items

/-- An item: an integer of the cell range, white space around it; an empty item rejects. -/
def parseItem (p : Params) (cs : List Char) : Option Int :=
  match parseInteger (trimItem cs) with
  | none => none
  | some v => if p.IsCell v then some v else none

/-- All the items, or a rejection of the whole image. -/
def parseItems (p : Params) : List (List Char) → Option (List Int)
  | [] => some []
  | item :: items =>
    match parseItem p item, parseItems p items with
    | some v, some vs => some (v :: vs)
    | _, _ => none

/-- The image a text gives, or none where the whole image is rejected. A text with no integers at all (only
white space) gives N = 0. -/
def parseImage (p : Params) (text : List Char) : Option (List Int) :=
  if text.all isImageSpace then some [] else parseItems p (splitItems text)

/-- `new(initial_memory, …)` from a program text: no CORE is constructed where the image is rejected (R100,
40_execution.md R132). -/
def State.constructFromText (p : Params) (text : List Char) (source : InputSource) : Option State :=
  (parseImage p text).map fun image => State.construct p image source

end Sys2Proof.Machine
end

