-- ==== Sys2Proof/Safety.lean ====
section
/-! DEFINITION. The machine's invariant, and what counts as a safe run. -/

namespace Sys2Proof.Machine

/-- What holds of every state a run can reach from a construction with a legal image. -/
structure State.Inv (s : State) : Prop where
  /-- the parameters are admitted ones (00_scope.md R5) -/
  paramsLegal : s.params.Legal
  /-- every cell of BASE is in the cell range (R6, 10_state.md R30) -/
  baseCells : ∀ v ∈ s.base, s.params.IsCell v
  /-- EXT is in its canonical form -/
  extSorted : Memory.wf s.ext
  /-- EXT holds only addresses from N up, and pointers (R20, 20_memory.md R52) -/
  extAddrs : ∀ e ∈ s.ext, s.imageLength ≤ e.1 ∧ e.1 ≤ s.params.ptrMax
  /-- every cell of EXT is in the cell range (R6) -/
  extCells : ∀ e ∈ s.ext, s.params.IsCell e.2
  /-- "`EXT` is empty whenever `EXT_EN = 0`" (20_memory.md R65) -/
  extOnlyEnabled : s.extEn = false → s.ext = []
  /-- `pc` is a pointer (10_state.md R22) -/
  pcPointer : s.pc ≤ s.params.ptrMax
  /-- `rb` is a cell (R25) -/
  rbCell : s.params.IsCell s.rb
  /-- ERR is set exactly in Faulted (R28) -/
  errIffFaulted : s.err.isSome = true ↔ s.status = .faulted
  /-- ERR records the pc of the faulting instruction, which is where `pc` still stands (60_exceptions.md R215) -/
  errPc : ∀ r, s.err = some r → r.pc = s.pc
  /-- every value the InputSource offers is a cell (92_eei_decisions.md D21) -/
  sourceCells : s.source.Cells s.params
  /-- every value pushed is a cell -/
  sinkCells : ∀ v ∈ s.sink, s.params.IsCell v

/-- A state in which no fatal error has been raised: what a safe run stays in (40_execution.md R138). -/
def State.Safe (s : State) : Prop := s.status ≠ .faulted

/-- The run has ended as it should (R138: "Halted is the only terminal state"). -/
def State.Ended (s : State) : Prop := s.status = .halted

end Sys2Proof.Machine
end

