-- ==== Sys2Proof/Certificates/Slice0/Obligations.lean ====
section
/-! DEFINITION. The statements for the provers. Each docstring names the rule or section of spec/ it formalises, and
the spec's own decision (92_eei_decisions.md D<n>) or the log entry where it rests on one. -/

namespace Sys2Proof.Machine

/-- The cells stand at consecutive addresses from `a`, each a pointer and each readable. -/
def State.HoldsAt (s : State) (a : Nat) (cells : List Int) : Prop :=
  ∀ k (h : k < cells.length), a + k ≤ s.params.ptrMax ∧ s.memRead (a + k) = .ok cells[k]

/-- The cycle is about to run, or is retried by the next `resume()` (R120, R128). -/
def State.Active (s : State) : Prop := s.status = .running ∨ s.status = .waitingOnInput

/-- The four instructions that write an ALU result, with their opcodes' width 4 (R82). -/
def AluInstr (a b dst : Param) : List Instr :=
  [.add a b dst, .mul a b dst, .lt a b dst, .eq a b dst]

/-- The exact result of such an instruction on its operands (R150, R151, R190, R191). -/
def exactResult : Instr → Int → Int → Int
  | .add .., x, y => x + y
  | .mul .., x, y => x * y
  | .lt .., x, y => if x < y then 1 else 0
  | .eq .., x, y => if x = y then 1 else 0
  | _, _, _ => 0

/-- The value of a text of decimal digits, the first one the most significant. -/
def decimalValue : List Char → Nat
  | [] => 0
  | c :: cs => (c.toNat - '0'.toNat) * 10 ^ cs.length + decimalValue cs

end Sys2Proof.Machine

open Sys2Proof Sys2Proof.Machine

/-! ### Encoding -/

/-- R80, R81, R85, R97: the encoding of a well-formed instruction, whatever follows it, decodes to it. -/
def Obligations.EncodedInstructionDecodesToItself : Prop :=
  ∀ (p : Params) (i : Instr) (rest : List Int), i.wellFormed p = true → decode (encode i ++ rest) = .ok (i, rest)

/-- R81, R82, R85, R90: what the decoder accepts, it has read digit by digit and cell by cell, and the result is
well-formed when the cells are cells. -/
def Obligations.DecodedInstructionIsReadFromItsDigits : Prop :=
  ∀ (p : Params) (c : Int) (cs rest : List Int) (i : Instr),
    (∀ v ∈ cs, p.IsCell v) → decode (c :: cs) = .ok (i, rest) →
    i.wellFormed p = true ∧ 0 ≤ c ∧ low2 c = i.opcode.number ∧ cs = i.operands.map Param.raw ++ rest ∧
    ∀ k (h : k < i.operands.length), dig c (k + 2) = (i.operands[k]).mode.digit

/-- Log 14 (the model's layout of words): the 64-bit words of a well-formed instruction decode to it. -/
def Obligations.EncodedWordsDecodeToTheInstruction : Prop :=
  ∀ i : Instr, i.wellFormed Params.standard = true →
    decodeTableWord (64 * i.width) (wordsOfCells (encode i)) = some i

/-- R87 (D4), R88: exactly the negative cells and the codes outside the map are UnknownOpCode. -/
def Obligations.UnknownOpCodeExactlyOutsideTheMap : Prop :=
  ∀ c : Int, decodeHead c = .error (.unknownOpCode c) ↔
    (c < 0 ∨ low2 c ∉ [1, 2, 3, 4, 5, 6, 7, 8, 9, 99])

/-- R89: the first examined digit that is 3 to 9 raises UnknownParameterType (with the fields R86 gives it). -/
def Obligations.FirstIllegalModeDigitIsReported : Prop :=
  ∀ (c : Int) (o : Opcode) (k : Nat), 0 ≤ c → Opcode.ofNumber (low2 c) = some o → k < o.kinds.length →
    2 < dig c (k + 2) →
    (∀ j, j < k → dig c (j + 2) ≤ 2 ∧ ¬ (o.kinds[j]? = some .output ∧ dig c (j + 2) = 1)) →
    decodeHead c = .error (.unknownParameterType c (k + 1) (dig c (k + 2)))

/-- R90: digit 1 on an output parameter raises OutputParameterInImmediateMode where the digits before it are
legal; an accepted output parameter is never Immediate; digits 0 and 2 are legal there. -/
def Obligations.OutputParameterIsNeverImmediate : Prop :=
  (∀ (c : Int) (o : Opcode) (k : Nat), 0 ≤ c → Opcode.ofNumber (low2 c) = some o →
    o.kinds[k]? = some .output → dig c (k + 2) = 1 → (∀ j, j < k → dig c (j + 2) ≤ 2) →
    decodeHead c = .error (.outputParameterInImmediateMode c (k + 1))) ∧
  (∀ (cs rest : List Int) (i : Instr) (q : Param), decode cs = .ok (i, rest) → i.outputParam = some q →
    q.mode ≠ .immediate) ∧
  (∀ (c : Int) (o : Opcode), 0 ≤ c → Opcode.ofNumber (low2 c) = some o →
    (∀ j, j < o.kinds.length → dig c (j + 2) ≤ 2 ∧ (o.kinds[j]? = some .output → dig c (j + 2) ≠ 1)) →
    ∃ ms, decodeHead c = .ok ⟨o, ms⟩)

/-- 30_encoding.md section 5, D5: digits above the examined ones have no effect. -/
def Obligations.UpperDigitsHaveNoEffect : Prop :=
  ∀ (c c' : Int) (h : Head), 0 ≤ c' → decodeHead c = .ok h →
    c'.toNat % 10 ^ (2 + h.modes.length) = c.toNat % 10 ^ (2 + h.modes.length) → decodeHead c' = .ok h

/-- Words written out from the encodings of R81 and R98's examples, one or more per family. -/
def Obligations.WrittenOutWordsDecode : Prop :=
  decode [1002, 4, 3, 4] = .ok (.mul (.position 4) (.immediate 3) (.position 4), []) ∧
  decode [21201, 5, -1, 5] = .ok (.add (.relative 5) (.immediate (-1)) (.relative 5), []) ∧
  decode [203, 5] = .ok (.inp (.relative 5), []) ∧
  decode [204, -1] = .ok (.out (.relative (-1)), []) ∧
  decode [1205, 5, 4] = .ok (.jt (.relative 5) (.immediate 4), []) ∧
  decode [1006, 101, 0] = .ok (.jf (.position 101) (.immediate 0), []) ∧
  decode [107, 1, 2, 3] = .ok (.lt (.immediate 1) (.position 2) (.position 3), []) ∧
  decode [1008, 100, 16, 101] = .ok (.eq (.position 100) (.immediate 16) (.position 101), []) ∧
  decode [109, 1] = .ok (.arb (.immediate 1), []) ∧
  decode [99] = .ok (.hlt, [])

/-! ### Memory and operands -/

/-- R53 (with its sentence on `get` and `put`): below N the base array, from N up the default-zero map when it is
enabled, else out of bounds. -/
def Obligations.ReadsAndWritesFollowTheRegions : Prop :=
  ∀ (s : State) (a : Nat) (v : Int),
    (∀ h : a < s.base.length, s.memRead a = .ok s.base[a] ∧
      ∃ t, s.memWrite a v = .ok t ∧ t.base = s.base.set a v ∧ t.ext = s.ext) ∧
    (s.base.length ≤ a → s.extEn = true →
      (∀ w, s.ext.lookup a = some w → s.memRead a = .ok w) ∧
      (s.ext.lookup a = none → s.memRead a = .ok 0) ∧
      ∃ t, s.memWrite a v = .ok t ∧ t.base = s.base ∧ (t.ext.lookup a).getD 0 = v ∧
        ∀ b, b ≠ a → t.ext.lookup b = s.ext.lookup b) ∧
    (s.base.length ≤ a → s.extEn = false →
      s.memRead a = .error (.readMemoryOutOfBounds a) ∧ s.memWrite a v = .error (.writeMemoryOutOfBounds a))

/-- 20_memory.md sections 2 and 5: a stored cell is read back, every other address reads as before, and nothing but
memory changes; a store from N up makes an entry, a stored 0 too (the spec's decision D15, log 4). -/
def Obligations.StoredCellIsReadBack : Prop :=
  ∀ (s t : State) (a : Nat) (v : Int), s.memWrite a v = .ok t →
    t.memRead a = .ok v ∧ (∀ b, b ≠ a → t.memRead b = s.memRead b) ∧
    t = { s with base := t.base, ext := t.ext } ∧ t.base.length = s.base.length ∧
    (s.base.length ≤ a → t.ext.lookup a = some v)

/-- R93, R95 (D7): an Immediate operand is the cell; a Position or Relative one is read at the exact address, which
must be a pointer. -/
def Obligations.InputOperandsResolveByMode : Prop :=
  ∀ (s : State) (r : Int),
    s.resolveIn (.immediate r) = .ok r ∧
    (∀ a : Nat, a ≤ s.params.ptrMax → (r = a → s.resolveIn (.position r) = s.memRead a) ∧
      (s.rb + r = a → s.resolveIn (.relative r) = s.memRead a)) ∧
    (r < 0 ∨ s.params.ptrMax < r →
      s.resolveIn (.position r) = .error (.memoryCellIsInvalidPointer .operand r)) ∧
    (s.rb + r < 0 ∨ s.params.ptrMax < s.rb + r →
      s.resolveIn (.relative r) = .error (.memoryCellIsInvalidPointer .operand (s.rb + r)))

/-- R94, R95 (D7): an output address is exact and must be a pointer. -/
def Obligations.OutputAddressesResolveByMode : Prop :=
  ∀ (s : State) (op : Opcode) (r : Int),
    (∀ a : Nat, a ≤ s.params.ptrMax → (r = a → s.resolveOut op (.position r) = .ok a) ∧
      (s.rb + r = a → s.resolveOut op (.relative r) = .ok a)) ∧
    (r < 0 ∨ s.params.ptrMax < r →
      s.resolveOut op (.position r) = .error (.memoryCellIsInvalidPointer .output r)) ∧
    (s.rb + r < 0 ∨ s.params.ptrMax < s.rb + r →
      s.resolveOut op (.relative r) = .error (.memoryCellIsInvalidPointer .output (s.rb + r)))

/-! ### What each instruction does -/

/-- 41_arithmetic.md section 1. -/
def Obligations.AddWritesTheExactSum : Prop :=
  ∀ (s : State) (a b dst : Param) (x y : Int) (d : Nat),
    s.resolveIn a = .ok x → s.resolveIn b = .ok y → s.resolveOut .add dst = .ok d →
    s.params.IsCell (x + y) → s.pc + 4 ≤ s.params.ptrMax → s.Accessible d →
    exec (.add a b dst) s = .next { s.store d (x + y) with pc := s.pc + 4 }

/-- 41_arithmetic.md section 2. -/
def Obligations.MultiplyWritesTheExactProduct : Prop :=
  ∀ (s : State) (a b dst : Param) (x y : Int) (d : Nat),
    s.resolveIn a = .ok x → s.resolveIn b = .ok y → s.resolveOut .mul dst = .ok d →
    s.params.IsCell (x * y) → s.pc + 4 ≤ s.params.ptrMax → s.Accessible d →
    exec (.mul a b dst) s = .next { s.store d (x * y) with pc := s.pc + 4 }

/-- 44_compare.md section 1 (GK1): signed, parameter 1 less than parameter 2. -/
def Obligations.LessThanWritesOneOrZero : Prop :=
  ∀ (s : State) (a b dst : Param) (x y : Int) (d : Nat),
    s.resolveIn a = .ok x → s.resolveIn b = .ok y → s.resolveOut .lt dst = .ok d →
    s.pc + 4 ≤ s.params.ptrMax → s.Accessible d →
    (x < y → exec (.lt a b dst) s = .next { s.store d 1 with pc := s.pc + 4 }) ∧
    (y ≤ x → exec (.lt a b dst) s = .next { s.store d 0 with pc := s.pc + 4 })

/-- 44_compare.md section 2 (GK2). -/
def Obligations.EqualsWritesOneOrZero : Prop :=
  ∀ (s : State) (a b dst : Param) (x y : Int) (d : Nat),
    s.resolveIn a = .ok x → s.resolveIn b = .ok y → s.resolveOut .eq dst = .ok d →
    s.pc + 4 ≤ s.params.ptrMax → s.Accessible d →
    (x = y → exec (.eq a b dst) s = .next { s.store d 1 with pc := s.pc + 4 }) ∧
    (x ≠ y → exec (.eq a b dst) s = .next { s.store d 0 with pc := s.pc + 4 })

/-- 42_io.md sections 1 and 3: a pulled value is written and the pc advances by 2; with no value the cycle waits, with
no write and no pc change. What a source answers: the queued answers in order, each once; then None for a queue
source, a fixed answer for ever, or free draws (D22; the shape of a source is the model's choice, logs 5 and 24). -/
def Obligations.InputWritesThePulledValueOrWaits : Prop :=
  ∀ (s : State) (dst : Param) (d : Nat), s.resolveOut .inp dst = .ok d →
    (∀ v, s.answer = some v → s.pc + 2 ≤ s.params.ptrMax → s.Accessible d →
      exec (.inp dst) s = .next { s.store d v with pc := s.pc + 2, source := s.source.pulled }) ∧
    (s.answer = none →
      exec (.inp dst) s = .next { s with status := .waitingOnInput, source := s.source.pulled }) ∧
    (∀ a answers rest, s.source = ⟨a :: answers, rest⟩ → s.answer = a ∧ s.source.pulled = ⟨answers, rest⟩) ∧
    (s.source = ⟨[], .silent⟩ → s.answer = none ∧ s.source.pulled = s.source) ∧
    (∀ a, s.source = ⟨[], .steady a⟩ → s.answer = a ∧ s.source.pulled = s.source) ∧
    (∀ view n, s.source = ⟨[], .draws view n⟩ → (∀ v, s.answer = some v → s.params.IsCell v) ∧
      s.answer = (freeAnswer s.params view n).map Subtype.val ∧ s.source.pulled = ⟨[], .draws view (n + 1)⟩)

/-- 42_io.md sections 2 and 3: the resolved operand, in any mode, is pushed after everything pushed before. -/
def Obligations.OutputPushesItsOperand : Prop :=
  ∀ (s : State) (v : Param) (x : Int), s.resolveIn v = .ok x → s.pc + 2 ≤ s.params.ptrMax →
    exec (.out v) s = .next { s with sink := s.sink ++ [x], pc := s.pc + 2 }

/-- 43_jump.md sections 1 and 3 (GK3, GK4, D13): taken on a non-zero condition, to a target that is a pointer; not
taken on 0, whatever the target. -/
def Obligations.JumpIfTrueJumpsOnNonZero : Prop :=
  ∀ (s : State) (cond target : Param) (c t : Int), s.resolveIn cond = .ok c → s.resolveIn target = .ok t →
    (c ≠ 0 → 0 ≤ t → t ≤ s.params.ptrMax → exec (.jt cond target) s = .next { s with pc := t.toNat }) ∧
    (c = 0 → s.pc + 3 ≤ s.params.ptrMax → exec (.jt cond target) s = .next { s with pc := s.pc + 3 })

/-- 43_jump.md sections 2 and 3 (GK3, D13): taken on 0, to a target that is a pointer; not taken otherwise. -/
def Obligations.JumpIfFalseJumpsOnZero : Prop :=
  ∀ (s : State) (cond target : Param) (c t : Int), s.resolveIn cond = .ok c → s.resolveIn target = .ok t →
    (c = 0 → 0 ≤ t → t ≤ s.params.ptrMax → exec (.jf cond target) s = .next { s with pc := t.toNat }) ∧
    (c ≠ 0 → s.pc + 3 ≤ s.params.ptrMax → exec (.jf cond target) s = .next { s with pc := s.pc + 3 })

/-- 45_base_and_halt.md section 1: the operand, resolved with the old base, is added to the base. -/
def Obligations.AdjustRelativeBaseAddsItsOperand : Prop :=
  ∀ (s : State) (v : Param) (x : Int), s.resolveIn v = .ok x → s.params.IsCell (s.rb + x) →
    s.pc + 2 ≤ s.params.ptrMax →
    exec (.arb v) s = .next { s with rb := s.rb + x, pc := s.pc + 2 }

/-- 45_base_and_halt.md section 2 (D12): STATUS <- Halted, everything else, the pc too, as before. -/
def Obligations.HaltOnlySetsHalted : Prop :=
  ∀ s : State, exec .hlt s = .next { s with status := .halted }

/-! ### Where an instruction takes an error -/

/-- 41_arithmetic.md section 3 (D3): under OVERFLOW_MODE = fault a result outside the cell range raises
ArithmeticOverflow with the exact value, before the pc and write checks (R216), and commits nothing. -/
def Obligations.OutOfRangeResultFaults : Prop :=
  ∀ (s : State) (a b dst : Param) (x y : Int) (d : Nat), s.params.overflow = .fault → s.resolveIn a = .ok x →
    (s.resolveIn b = .ok y → s.resolveOut .add dst = .ok d → ¬ s.params.IsCell (x + y) →
      exec (.add a b dst) s = .next { s with status := .faulted, err := some ⟨s.pc, .arithmeticOverflow (x + y)⟩ }) ∧
    (s.resolveIn b = .ok y → s.resolveOut .mul dst = .ok d → ¬ s.params.IsCell (x * y) →
      exec (.mul a b dst) s = .next { s with status := .faulted, err := some ⟨s.pc, .arithmeticOverflow (x * y)⟩ }) ∧
    (¬ s.params.IsCell (s.rb + x) →
      exec (.arb a) s = .next { s with status := .faulted, err := some ⟨s.pc, .arithmeticOverflow (s.rb + x)⟩ })

/-- R152, GK6: under OVERFLOW_MODE = wrap the result is the one cell congruent to the exact value. -/
def Obligations.WrapModeReducesModuloTheCellRange : Prop :=
  ∀ (p : Params) (v : Int), p.overflow = .wrap → 1 ≤ p.cellWidth →
    ∃ w, toCell p v = .ok w ∧ p.IsCell w ∧ ((2 ^ p.cellWidth : Nat) : Int) ∣ v - w ∧
      ∀ w', p.IsCell w' → ((2 ^ p.cellWidth : Nat) : Int) ∣ v - w' → w' = w

/-- 41_arithmetic.md sections 1 to 3, 45_base_and_halt.md section 1 (D3, GK6): under wrap, Add, Multiply and
AdjustRelativeBase complete with the reduced result. -/
def Obligations.WrapModeCompletesWithTheReducedResult : Prop :=
  ∀ (s : State) (a b dst : Param) (x y w : Int) (d : Nat), s.params.overflow = .wrap → 1 ≤ s.params.cellWidth →
    s.params.IsCell w → s.resolveIn a = .ok x →
    (s.resolveIn b = .ok y → s.resolveOut .add dst = .ok d → ((2 ^ s.params.cellWidth : Nat) : Int) ∣ x + y - w →
      s.pc + 4 ≤ s.params.ptrMax → s.Accessible d →
      exec (.add a b dst) s = .next { s.store d w with pc := s.pc + 4 }) ∧
    (s.resolveIn b = .ok y → s.resolveOut .mul dst = .ok d → ((2 ^ s.params.cellWidth : Nat) : Int) ∣ x * y - w →
      s.pc + 4 ≤ s.params.ptrMax → s.Accessible d →
      exec (.mul a b dst) s = .next { s.store d w with pc := s.pc + 4 }) ∧
    (((2 ^ s.params.cellWidth : Nat) : Int) ∣ s.rb + x - w → s.pc + 2 ≤ s.params.ptrMax →
      exec (.arb a) s = .next { s with rb := w, pc := s.pc + 2 })

/-- 60_exceptions.md section 2 (D6, D11): a write outside the accessible memory raises WriteMemoryOutOfBounds, under
both values of OVERFLOW_MODE; an Input whose write faults has consumed its value. -/
def Obligations.InaccessibleDestinationFaults : Prop :=
  ∀ (s : State) (d : Nat), ¬ s.Accessible d →
    (∀ (a b dst : Param) (x y w : Int) (i : Instr), i ∈ AluInstr a b dst →
      s.resolveIn a = .ok x → s.resolveIn b = .ok y → s.resolveOut i.opcode dst = .ok d →
      (i.opcode = .add ∨ i.opcode = .mul → toCell s.params (exactResult i x y) = .ok w) →
      s.pc + 4 ≤ s.params.ptrMax →
      exec i s = .next { s with status := .faulted, err := some ⟨s.pc, .writeMemoryOutOfBounds d⟩ }) ∧
    (∀ (dst : Param) (v : Int),
      s.resolveOut .inp dst = .ok d → s.answer = some v → s.pc + 2 ≤ s.params.ptrMax →
      exec (.inp dst) s = .next { s with
        status := .faulted, err := some ⟨s.pc, .writeMemoryOutOfBounds d⟩, source := s.source.pulled })

/-- 60_exceptions.md section 2 (D6), places 5 and 6 of R216: the first operand that does not resolve is the error
taken, input parameters in order, then the output address. -/
def Obligations.OperandErrorsComeInParameterOrder : Prop :=
  ∀ (s : State) (a b dst : Param) (i : Instr) (e : Err), i ∈ AluInstr a b dst →
    (s.resolveIn a = .error e → exec i s = .next (s.faultEntry e)) ∧
    (∀ x, s.resolveIn a = .ok x → s.resolveIn b = .error e → exec i s = .next (s.faultEntry e)) ∧
    (∀ x y, s.resolveIn a = .ok x → s.resolveIn b = .ok y → s.resolveOut i.opcode dst = .error e →
      exec i s = .next (s.faultEntry e))

/-- 60_exceptions.md section 2 (D6): the same for the other instructions with parameters; an Input's output address
is resolved before the pull, so its error consumes no value. -/
def Obligations.OperandErrorsOfTheOtherInstructions : Prop :=
  ∀ (s : State) (u w : Param) (e : Err),
    (s.resolveIn u = .error e →
      exec (.out u) s = .next (s.faultEntry e) ∧ exec (.arb u) s = .next (s.faultEntry e) ∧
      exec (.jt u w) s = .next (s.faultEntry e) ∧ exec (.jf u w) s = .next (s.faultEntry e)) ∧
    (∀ x, s.resolveIn u = .ok x → s.resolveIn w = .error e →
      exec (.jt u w) s = .next (s.faultEntry e) ∧ exec (.jf u w) s = .next (s.faultEntry e)) ∧
    (s.resolveOut .inp u = .error e → exec (.inp u) s = .next (s.faultEntry e))

/-- 43_jump.md section 3, D13: a taken jump to an integer that is no pointer raises
MemoryCellIsInvalidPointer("target"). -/
def Obligations.TakenJumpChecksItsTarget : Prop :=
  ∀ (s : State) (cond target : Param) (c t : Int), s.resolveIn cond = .ok c → s.resolveIn target = .ok t →
    (t < 0 ∨ s.params.ptrMax < t) →
    (c ≠ 0 → exec (.jt cond target) s = .next (s.faultEntry (.memoryCellIsInvalidPointer .target t))) ∧
    (c = 0 → exec (.jf cond target) s = .next (s.faultEntry (.memoryCellIsInvalidPointer .target t)))

/-- 10_state.md section 3 (D7), D6: an advance past PTR_MAX raises MemoryCellIsInvalidPointer("pc") and does not
wrap, before the write check, under both values of OVERFLOW_MODE. For an Input the value has been pulled by then
(log 12). -/
def Obligations.AdvancePastTheLastPointerFaults : Prop :=
  ∀ (s : State) (a b dst : Param) (x y : Int) (d : Nat), s.resolveIn a = .ok x → s.resolveIn b = .ok y →
    (∀ i ∈ AluInstr a b dst, ∀ w, s.resolveOut i.opcode dst = .ok d →
      (i.opcode = .add ∨ i.opcode = .mul → toCell s.params (exactResult i x y) = .ok w) →
      s.params.ptrMax < s.pc + 4 →
      exec i s = .next (s.faultEntry (.memoryCellIsInvalidPointer .pc (s.pc + 4)))) ∧
    (s.params.ptrMax < s.pc + 2 →
      exec (.out a) s = .next (s.faultEntry (.memoryCellIsInvalidPointer .pc (s.pc + 2))) ∧
      (∀ w, toCell s.params (s.rb + x) = .ok w →
        exec (.arb a) s = .next (s.faultEntry (.memoryCellIsInvalidPointer .pc (s.pc + 2)))) ∧
      (∀ v : Int, s.resolveOut .inp dst = .ok d → s.answer = some v →
        exec (.inp dst) s =
          .next ({ s with source := s.source.pulled }.faultEntry (.memoryCellIsInvalidPointer .pc (s.pc + 2))))) ∧
    (s.params.ptrMax < s.pc + 3 →
      (x = 0 → exec (.jt a b) s = .next (s.faultEntry (.memoryCellIsInvalidPointer .pc (s.pc + 3)))) ∧
      (x ≠ 0 → exec (.jf a b) s = .next (s.faultEntry (.memoryCellIsInvalidPointer .pc (s.pc + 3)))))

/-- 60_exceptions.md section 2 (D10): what fault entry writes, and that it writes nothing else. -/
def Obligations.FaultEntryWritesStatusAndErrOnly : Prop :=
  ∀ (s : State) (e : Err), s.faultEntry e = { s with status := .faulted, err := some ⟨s.pc, e⟩ }

/-- 40_execution.md section 3, 60_exceptions.md section 1: no step raises EffectMismatch, whose code is 7 (D9); only
an instruction the decoder never makes, with an Immediate output parameter, does (log 11). -/
def Obligations.EffectMismatchIsOnlyASelfCheck : Prop :=
  (∀ (s t : State) (op : Opcode), s.Active → step s = .next t → t.status = .faulted →
    t.err ≠ some ⟨s.pc, .effectMismatch op⟩) ∧
  (∀ (s : State) (r : Int), exec (.inp (.immediate r)) s = .next (s.faultEntry (.effectMismatch .inp))) ∧
  (∀ op, Err.code (.effectMismatch op) = 7)

/-! ### Frames -/

/-- The frame of ADD, MUL, LT and EQ: of the registers only the pc may change; STATUS and ERR only by fault entry;
of memory only the cell at the output address, resolved on the state before; no input, no output. -/
def Obligations.AluInstructionsFrame : Prop :=
  ∀ (s t : State) (a b dst : Param) (i : Instr), i ∈ AluInstr a b dst → exec i s = .next t →
    (t.rb = s.rb ∧ t.extEn = s.extEn ∧ t.params = s.params ∧ t.base.length = s.base.length ∧
      t.source = s.source ∧ t.sink = s.sink) ∧
    (∀ d, s.resolveOut i.opcode dst = .ok d → ∀ x, x ≠ d → t.memRead x = s.memRead x) ∧
    ((∀ d, s.resolveOut i.opcode dst ≠ .ok d) → t.memRead = s.memRead) ∧
    ((t.status = s.status ∧ t.err = s.err) ∨ ∃ e, t = s.faultEntry e)

/-- The frame of IN (42_io.md sections 1 and 3, 40_execution.md section 1): as above; the InputSource changes by one
pull at most, and only when the output address resolves; memory is unchanged when no value was pulled. The pull stands
also where an error follows it: a write that faults (the spec's decision D11), and a pc + 2 past PTR_MAX (the model's
deduction from D6's order, log 12). -/
def Obligations.InputFrame : Prop :=
  ∀ (s t : State) (dst : Param), exec (.inp dst) s = .next t →
    (t.rb = s.rb ∧ t.extEn = s.extEn ∧ t.params = s.params ∧ t.base.length = s.base.length ∧ t.sink = s.sink) ∧
    (∀ d, s.resolveOut .inp dst = .ok d → t.source = s.source.pulled ∧ ∀ x, x ≠ d → t.memRead x = s.memRead x) ∧
    ((∀ d, s.resolveOut .inp dst ≠ .ok d) → t.source = s.source ∧ t.memRead = s.memRead) ∧
    (s.answer = none → t.memRead = s.memRead ∧ t.pc = s.pc) ∧
    ((t.status = s.status ∧ t.err = s.err) ∨ (t.status = .waitingOnInput ∧ t.err = s.err ∧ s.answer = none) ∨
      ∃ e, t = { s with source := t.source }.faultEntry e)

/-- The frame of OUT, JT, JF, ARB and HLT, which store nothing: all of memory, the InputSource and the parameters are
unchanged; the OutputSink changes by OUT only, the base by ARB only; STATUS and ERR by fault entry, and STATUS by
HLT. -/
def Obligations.NonStoringInstructionsFrame : Prop :=
  ∀ (s t : State) (u w : Param) (i : Instr), i ∈ [.out u, .jt u w, .jf u w, .arb u, .hlt] → exec i s = .next t →
    (t.base = s.base ∧ t.ext = s.ext ∧ t.extEn = s.extEn ∧ t.params = s.params ∧ t.source = s.source) ∧
    (∀ x, t.memRead x = s.memRead x) ∧
    (i ≠ .out u → t.sink = s.sink) ∧ (i ≠ .arb u → t.rb = s.rb) ∧
    ((t.status = s.status ∧ t.err = s.err) ∨ (i = .hlt ∧ t.status = .halted ∧ t.err = s.err) ∨
      ∃ e, t = s.faultEntry e)

/-! ### The step -/

/-- R86, R120: when the cells at pc decode to an instruction, the step of a Running CORE is exec of it there. -/
def Obligations.StepRunsTheDecodedInstruction : Prop :=
  ∀ (s : State) (i : Instr) (cells : List Int), s.status = .running → s.HoldsAt s.pc cells →
    decode cells = .ok (i, []) → step s = exec i s

/-- The same from the encoder's side: memory that holds the encoding of a well-formed instruction at pc runs it. -/
def Obligations.StepRunsTheEncodedInstruction : Prop :=
  ∀ (s : State) (i : Instr), s.status = .running → i.wellFormed s.params = true → s.HoldsAt s.pc (encode i) →
    step s = exec i s

/-- 30_encoding.md section 4 (D6) and R214 (D10): an error of the opcode cell is taken before any parameter cell is
fetched, and an opcode cell that cannot be read is the fetch's own error. -/
def Obligations.OpcodeCellErrorsAreTakenFirst : Prop :=
  ∀ (s : State) (e : Err), s.status = .running →
    (s.memRead s.pc = .error e → step s = .next (s.faultEntry e)) ∧
    (∀ c, s.memRead s.pc = .ok c → decodeHead c = .error e → step s = .next (s.faultEntry e))

/-- 20_memory.md section 3, 30_encoding.md section 4 (D6): the first parameter cell whose address is no pointer, or
that cannot be read, is the error taken. -/
def Obligations.ParameterCellErrorsComeInOrder : Prop :=
  ∀ (s : State) (c : Int) (h : Head) (k : Nat), s.status = .running → s.memRead s.pc = .ok c →
    decodeHead c = .ok h → k < h.modes.length →
    (∀ j, j < k → s.pc + 1 + j ≤ s.params.ptrMax ∧ ∃ v, s.memRead (s.pc + 1 + j) = .ok v) →
    (s.params.ptrMax < s.pc + 1 + k →
      step s = .next (s.faultEntry (.memoryCellIsInvalidPointer .param (s.pc + 1 + k)))) ∧
    (∀ e, s.pc + 1 + k ≤ s.params.ptrMax → s.memRead (s.pc + 1 + k) = .error e → step s = .next (s.faultEntry e))

/-- 40_execution.md section 2 (log 8): the step of a waiting CORE is the retry, the step it would take Running. -/
def Obligations.WaitingStepRetriesFromTheFetch : Prop :=
  ∀ s : State, s.status = .waitingOnInput → step s = step { s with status := .running }

/-- 42_io.md section 1, 40_execution.md section 2, 70_reset_and_hazards.md section 3: an Input that finds no value n
times and then one consumes exactly that one, and ends as if it had not waited. The n + 1 steps are the cycles of n + 1
resume() calls: that a step of a waiting CORE stands for the next call is the model's deduction, log 8. -/
def Obligations.InputConsumesOneValueHoweverOftenItWaits : Prop :=
  ∀ (n : Nat) (s : State) (dst : Param) (d : Nat) (v : Int),
    s.Active → s.fetchDecode = .ok (.inp dst) → s.resolveOut .inp dst = .ok d → s.Accessible d →
    s.pc + 2 ≤ s.params.ptrMax → (∀ k < n, (s.source.pulledTimes k).answer s.params = none) →
    (s.source.pulledTimes n).answer s.params = some v →
    Sys2Proof.core.run (n + 1) s =
      .next { s.store d v with pc := s.pc + 2, source := s.source.pulledTimes (n + 1), status := .running }

/-- 20_memory.md section 5: an instruction stored by one cycle is what the next cycle fetches; here a Halt, stored
where the pc goes next. -/
def Obligations.StoredHaltIsFetchedNext : Prop :=
  ∀ (s : State) (a b dst : Param) (x y c : Int), s.status = .running → s.HoldsAt s.pc (encode (.add a b dst)) →
    (Instr.add a b dst).wellFormed s.params = true → s.resolveIn a = .ok x → s.resolveIn b = .ok y →
    s.resolveOut .add dst = .ok (s.pc + 4) → s.Accessible (s.pc + 4) → s.params.IsCell (x + y) →
    x + y = c → 0 ≤ c → low2 c = 99 →
    Sys2Proof.core.run 2 s = .next { s.store (s.pc + 4) c with pc := s.pc + 4, status := .halted }

/-! ### Whole-machine rules -/

/-- The invariant of Safety.lean is kept by every step, from every state that meets it. -/
def Obligations.StepKeepsTheInvariant : Prop :=
  ∀ s t : State, s.Inv → step s = .next t → t.Inv

/-- 10_state.md section 9: the machine right after reset meets the invariant. -/
def Obligations.ResetMeetsTheInvariant : Prop := State.reset.Inv

/-- R100, R132: a CORE constructed from a program text, with cells to come from its InputSource, meets the
invariant. -/
def Obligations.ConstructionMeetsTheInvariant : Prop :=
  ∀ (p : Params) (text : List Char) (source : InputSource) (s : State), p.Legal →
    source.Cells p → State.constructFromText p text source = some s → s.Inv

/-- 10_state.md section 9 (ERR: D10): what construction leaves, for every image and every device. State.reset is the
construction with the parameters 00_scope.md section 3 fixes (D1 to D3; log 3), the empty image (the model's choice,
log 7) and an empty queue as InputSource (the model's choice, log 5). -/
def Obligations.ConstructionLeavesTheResetValues : Prop :=
  (∀ (p : Params) (image : List Int) (source : InputSource),
    let s := State.construct p image source
    s.base = image ∧ s.ext = [] ∧ s.extEn = false ∧ s.pc = 0 ∧ s.rb = 0 ∧ s.status = .running ∧ s.err = none) ∧
  State.reset = State.construct ⟨64, 64, .fault⟩ [] ⟨[], .silent⟩

/-- 60_exceptions.md section 2, 40_execution.md section 1 (D10, D11): a step that raises an error leaves memory, pc,
rb and the output as they were; ERR names the instruction's address; at most one input value is gone. -/
def Obligations.FaultingStepCommitsNothing : Prop :=
  ∀ s t : State, s.Active → step s = .next t → t.status = .faulted →
    t.base = s.base ∧ t.ext = s.ext ∧ t.extEn = s.extEn ∧ t.pc = s.pc ∧ t.rb = s.rb ∧ t.sink = s.sink ∧
    t.params = s.params ∧ (∃ e, t.err = some ⟨s.pc, e⟩) ∧
    (t.source = s.source ∨ (t.source = s.source.pulled ∧ ∃ dst, s.fetchDecode = .ok (.inp dst)))

/-- 10_state.md sections 1, 4, 6, 7; 20_memory.md R51, R65: no step changes N, EXT_EN or the parameters, and only
AdjustRelativeBase changes rb. -/
def Obligations.StepKeepsConfigurationAndBase : Prop :=
  ∀ s t : State, step s = .next t →
    t.base.length = s.base.length ∧ t.extEn = s.extEn ∧ t.params = s.params ∧
    (t.rb ≠ s.rb → ∃ v, s.fetchDecode = .ok (.arb v))

/-- 20_memory.md section 3, 40_execution.md section 1: a cell of memory changes only at the output address of the
instruction the step ran. -/
def Obligations.MemoryChangesOnlyAtTheOutputAddress : Prop :=
  ∀ (s t : State) (x : Nat), step s = .next t → t.memRead x ≠ s.memRead x →
    ∃ i dst, s.fetchDecode = .ok i ∧ i.outputParam = some dst ∧ s.resolveOut i.opcode dst = .ok x

/-- 42_io.md section 3: only an Output pushes, one value; only an Input pulls, one answer. -/
def Obligations.OnlyOutputPushesAndOnlyInputPulls : Prop :=
  ∀ s t : State, step s = .next t →
    (t.sink ≠ s.sink → ∃ v x, s.fetchDecode = .ok (.out v) ∧ s.resolveIn v = .ok x ∧ t.sink = s.sink ++ [x]) ∧
    (t.source ≠ s.source → ∃ dst, s.fetchDecode = .ok (.inp dst) ∧ t.source = s.source.pulled)

/-- 10_state.md section 5 (D10): the terminal states are never left; only Halt enters Halted, with nothing else
changed but STATUS. -/
def Obligations.OnlyHaltEntersHaltedAndTerminalStatesStay : Prop :=
  ∀ s t : State, step s = .next t →
    (s.status = .halted ∨ s.status = .faulted → t = s) ∧
    (s.status ≠ .halted → t.status = .halted →
      s.fetchDecode = .ok .hlt ∧ t = { s with status := .halted })

/-! ### The host's commands -/

/-- R127: `resume()` on a Halted CORE returns Halt at once and changes nothing. -/
def Obligations.ResumeOnHaltedChangesNothing : Prop :=
  ∀ (s : State) (n : Nat), s.status = .halted → s.resume (n + 1) = some (.halt, s)

/-- 40_execution.md section 2: `resume()` returns WaitingOnInput, Halt, or an error, and which one is the STATUS it
leaves; an error carries the record ERR holds (D10). 70_reset_and_hazards.md section 4: on a Running or waiting CORE it
takes its next cycle, and goes on exactly as long as the cycle leaves the CORE Running (fuel: log 13; the first cycle
of a waiting CORE: log 8). -/
def Obligations.ResumeReturnsWhatStatusSays : Prop :=
  (∀ (n : Nat) (s t : State) (r : ResumeResult), s.Inv → s.resume n = some (r, t) →
    (r = .waitingOnInput ∧ t.status = .waitingOnInput) ∨ (r = .halt ∧ t.status = .halted) ∨
    (∃ x, r = .error (some x) ∧ t.status = .faulted ∧ t.err = some x)) ∧
  (∀ s : State, s.Active → ∃ t, step s = .next t ∧ ∀ n,
    (t.status = .running → s.resume (n + 1) = t.resume n) ∧
    (t.status = .waitingOnInput → s.resume (n + 1) = some (.waitingOnInput, t)) ∧
    (t.status = .halted → s.resume (n + 1) = some (.halt, t)) ∧
    (t.status = .faulted → s.resume (n + 1) = some (.error t.err, t)))

/-- 40_execution.md sections 1 and 2, log 13: the fuel only bounds a run; more of it never changes an ended one. -/
def Obligations.MoreFuelNeverChangesAnEndedRun : Prop :=
  ∀ (n k : Nat) (s : State) (x : ResumeResult × State), s.resume n = some x → s.resume (n + k) = some x

/-- 40_execution.md section 2, D10: `resume()` on a Faulted CORE returns the same error and changes nothing. -/
def Obligations.ResumeOnFaultedReturnsTheSameError : Prop :=
  ∀ (s : State) (n : Nat), s.status = .faulted → s.resume (n + 1) = some (.error s.err, s)

/-- 40_execution.md section 2, D19: `run_until_halt()` is one `resume()`, its WaitingOnInput turned into
InputRequired, the CORE left as `resume()` left it. -/
def Obligations.RunUntilHaltIsOneResume : Prop :=
  ∀ (n : Nat) (s t : State), (s.resume n = some (.waitingOnInput, t) → s.runUntilHalt n = some (.inputRequired, t)) ∧
    (s.resume n = some (.halt, t) → s.runUntilHalt n = some (.ok, t)) ∧
    (∀ e, s.resume n = some (.error e, t) → s.runUntilHalt n = some (.error e, t))

/-- 20_memory.md R65, 40_execution.md section 3 (D14): enabling the extension changes EXT_EN only, twice is once, and
addresses from N up turn from out of bounds to zero. -/
def Obligations.EnablingTheExtensionTurnsFaultsIntoZeros : Prop :=
  ∀ s : State, s.enableExtraMemory = { s with extEn := true } ∧
    s.enableExtraMemory.enableExtraMemory = s.enableExtraMemory ∧
    (∀ a, a < s.base.length → s.enableExtraMemory.memRead a = s.memRead a) ∧
    (s.Inv → s.extEn = false → ∀ a, s.base.length ≤ a →
      s.memRead a = .error (.readMemoryOutOfBounds a) ∧ s.enableExtraMemory.memRead a = .ok 0) ∧
    (s.Inv → s.enableExtraMemory.Inv)

/-- 40_execution.md section 3 (D14, D16, D26, D27): no command but the two that run the CORE changes BASE, EXT, pc,
rb, STATUS, ERR or the parameters; EXT_EN is never cleared; a diagnostic read answers MemRead and changes nothing
(R136 speaks of a pointer; the same answer for any other number is the model's choice, log 20). The device commands change the devices
as log 23 says, and the two that run the CORE answer what they return. -/
def Obligations.HostCommandsLeaveTheCoreAlone : Prop :=
  ∀ (fuel : Nat) (s : State),
    (∀ (t : State) (c : HostCommand) (r : HostReply), s.hostCommand fuel c = some (r, t) →
      (c ≠ .resume → c ≠ .runUntilHalt →
        t.base = s.base ∧ t.ext = s.ext ∧ t.pc = s.pc ∧ t.rb = s.rb ∧ t.status = s.status ∧ t.err = s.err ∧
        t.params = s.params ∧ (t.extEn ≠ s.extEn → c = .enableExtraMemory)) ∧
      (s.extEn = true → t.extEn = true)) ∧
    (∀ a, (∀ v, s.memRead a = .ok v → s.hostCommand fuel (.readMemory a) = some (.cell v, s)) ∧
      (∀ e, s.memRead a = .error e → s.hostCommand fuel (.readMemory a) = some (.readError e, s))) ∧
    s.hostCommand fuel .enableExtraMemory = some (.done, s.enableExtraMemory) ∧
    (∀ v, s.hostCommand fuel (.enqueueInput v) =
      some (.done, { s with source := ⟨s.source.queue ++ [some v], s.source.rest⟩ })) ∧
    (∀ source, s.hostCommand fuel (.driveSource source) = some (.done, { s with source := source })) ∧
    s.hostCommand fuel .drainOutput = some (.drained s.sink, { s with sink := [] }) ∧
    (∀ x u, s.resume fuel = some (x, u) → s.hostCommand fuel .resume = some (.resumed x, u)) ∧
    (∀ x u, s.runUntilHalt fuel = some (x, u) → s.hostCommand fuel .runUntilHalt = some (.ran x, u))

/-- 30_encoding.md section 9 (D23): a text of comma-separated items is read item by item, and one item that is
rejected rejects the whole image; a text of white space alone holds no integers and gives N = 0 (log 16). -/
def Obligations.ImageTextIsReadItemByItem : Prop :=
  ∀ p : Params,
    (∀ items : List (List Char), (∀ item ∈ items, ',' ∉ item) →
      (2 ≤ items.length ∨ ∃ item, items = [item] ∧ item.all isImageSpace = false) →
      parseImage p (List.intercalate [','] items) = items.mapM (parseItem p)) ∧
    (∀ text : List Char, text.all isImageSpace = true → parseImage p text = some [])

/-- 30_encoding.md section 9 (D23): an integer is an optional `-` followed by one or more decimal digits, and nothing
else, and its value is theirs, negated after the `-`. An item is an integer of the cell range with any white space
before and after it (space, tab, line feed, carriage return: log 16), and nothing else. -/
def Obligations.IntegersAreOptionalMinusAndDigits : Prop :=
  (∀ cs : List Char, (parseInteger cs).isSome = true ↔
    ∃ ds : List Char, ds ≠ [] ∧ (∀ c ∈ ds, '0' ≤ c ∧ c ≤ '9') ∧ (cs = ds ∨ cs = '-' :: ds)) ∧
  (∀ ds : List Char, ds ≠ [] → (∀ c ∈ ds, '0' ≤ c ∧ c ≤ '9') →
    parseInteger ds = some (decimalValue ds : Int) ∧ parseInteger ('-' :: ds) = some (-(decimalValue ds : Int))) ∧
  (∀ (p : Params) (item : List Char) (v : Int), parseItem p item = some v ↔
    p.IsCell v ∧ ∃ before cs behind : List Char, item = before ++ cs ++ behind ∧ parseInteger cs = some v ∧
      ∀ c, c ∈ before ∨ c ∈ behind → c ∈ [' ', '\t', '\n', '\r'])
end

