-- ==== Sys2Proof/Laws/Decode.lean ====
section
/-! SUPPORT. The small lemmas of the decoder and the encoder. -/

namespace Sys2Proof

@[simp] theorem Opcode.ofNumber_number (o : Opcode) : Opcode.ofNumber o.number = some o := by
  cases o <;> rfl

theorem Opcode.number_of_ofNumber {n : Nat} {o : Opcode} (h : Opcode.ofNumber n = some o) : o.number = n := by
  simpa using List.find?_some h

@[simp] theorem Mode.ofDigit_digit (m : Mode) : Mode.ofDigit m.digit = some m := by
  cases m <;> rfl

theorem Mode.digit_of_ofDigit {d : Nat} {m : Mode} (h : Mode.ofDigit d = some m) : m.digit = d := by
  unfold Mode.ofDigit at h
  split at h <;> first | (obtain rfl := Option.some.inj h; rfl) | cases h

theorem Mode.digit_le_two (m : Mode) : m.digit ≤ 2 := by
  cases m <;> decide

@[simp] theorem Mode.mode_param (m : Mode) (r : Int) : (m.param r).mode = m := by
  cases m <;> rfl

@[simp] theorem Mode.raw_param (m : Mode) (r : Int) : (m.param r).raw = r := by
  cases m <;> rfl

@[simp] theorem Param.param_mode_raw (q : Param) : q.mode.param q.raw = q := by
  cases q <;> rfl

/-- Digits of a cell given as a natural number. -/
@[simp] theorem dig_natCast (n k : Nat) : dig (n : Int) k = n / 10 ^ k % 10 := rfl

@[simp] theorem low2_natCast (n : Nat) : low2 (n : Int) = n % 100 := rfl

/-- An instruction has one operand per parameter of its opcode. -/
theorem Instr.operands_length (i : Instr) : i.operands.length = i.opcode.kinds.length := by
  cases i <;> rfl

/-- Assembling an instruction from its own opcode and operands gives it back. -/
@[simp] theorem assembleInstr_operands (i : Instr) : assembleInstr i.opcode i.operands = .ok i := by
  cases i <;> rfl

/-- What `assembleInstr` answers has that opcode and those operands. -/
theorem assembleInstr_ok {o : Opcode} {ps : List Param} {i : Instr} (h : assembleInstr o ps = .ok i) :
    i.opcode = o ∧ i.operands = ps := by
  unfold assembleInstr at h
  split at h <;> first | (obtain rfl := Except.ok.inj h; exact ⟨rfl, rfl⟩) | cases h

/-- Taking the raw cells of a list of parameters gives the parameters back. -/
theorem takeParams_raw (ps : List Param) (rest : List Int) :
    takeParams (ps.map Param.mode) (ps.map Param.raw ++ rest) = some (ps, rest) := by
  induction ps with
  | nil => rfl
  | cons q qs ih => simp [takeParams, ih]

/-- Everything `takeParams` can do when it answers. -/
theorem takeParams_some {ms : List Mode} {cs rest : List Int} {ps : List Param}
    (h : takeParams ms cs = some (ps, rest)) : ps.map Param.mode = ms ∧ cs = ps.map Param.raw ++ rest := by
  induction ms generalizing cs ps with
  | nil =>
    simp only [takeParams, Option.some.injEq, Prod.mk.injEq] at h
    obtain ⟨rfl, rfl⟩ := h
    exact ⟨rfl, rfl⟩
  | cons m ms ih =>
    cases cs with
    | nil => cases h
    | cons r cs =>
      simp only [takeParams] at h
      split at h
      · cases h
      · rename_i ps' rest' hp
        simp only [Option.some.injEq, Prod.mk.injEq] at h
        obtain ⟨rfl, rfl⟩ := h
        obtain ⟨rfl, rfl⟩ := ih hp
        simp

/-- Phase 2 when every examined digit is legal: the modes are those of the digits. -/
theorem checkModes_ok {c : Int} {ks : List ParamKind} {ms : List Mode} {i : Nat}
    (h : checkModes c i ks = .ok ms) :
    ms.length = ks.length ∧
    ∀ k (hk : k < ms.length) (hk' : k < ks.length),
      Mode.ofDigit (dig c (i + k + 1)) = some ms[k] ∧ ¬ (ks[k] = .output ∧ ms[k] = .immediate) := by
  induction ks generalizing i ms with
  | nil =>
    simp only [checkModes, Except.ok.injEq] at h
    subst h
    exact ⟨rfl, fun k hk => absurd hk (Nat.not_lt_zero k)⟩
  | cons kd ks ih =>
    simp only [checkModes] at h
    split at h
    · cases h
    · rename_i m hm
      split at h
      · cases h
      · rename_i hio
        split at h
        · cases h
        · rename_i ms' hms
          simp only [Except.ok.injEq] at h
          subst h
          obtain ⟨hl, hall⟩ := ih hms
          refine ⟨by simp [hl], ?_⟩
          intro k hk hk'
          cases k with
          | zero => exact ⟨hm, hio⟩
          | succ k =>
            have := hall k (by simpa using hk) (by simpa using hk')
            simpa [Nat.add_assoc, Nat.add_comm, Nat.add_left_comm] using this

/-- Everything the opcode-cell decoder answers when it accepts. -/
theorem decodeHead_ok {c : Int} {h : Head} (hd : decodeHead c = .ok h) :
    0 ≤ c ∧ Opcode.ofNumber (low2 c) = some h.opcode ∧ checkModes c 1 h.opcode.kinds = .ok h.modes := by
  unfold decodeHead at hd
  split at hd
  · cases hd
  · rename_i hc
    split at hd
    · cases hd
    · rename_i o ho
      split at hd
      · cases hd
      · rename_i ms hms
        obtain rfl := Except.ok.inj hd
        exact ⟨by omega, ho, hms⟩

/-- An accepted opcode cell has one mode per parameter. -/
theorem decodeHead_modes_length {c : Int} {h : Head} (hd : decodeHead c = .ok h) :
    h.modes.length = h.opcode.kinds.length :=
  (checkModes_ok (decodeHead_ok hd).2.2).1

end Sys2Proof
end

