-- ==== Sys2Proof/Laws/State.lean ====
section
/-! SUPPORT. One lemma per field per update of State, so that no proof unfolds a record update. -/

namespace Sys2Proof.Machine

/-! ### withPc -/

@[simp] theorem State.withPc_base (s : State) (p : Nat) : (s.withPc p).base = s.base := rfl
@[simp] theorem State.withPc_ext (s : State) (p : Nat) : (s.withPc p).ext = s.ext := rfl
@[simp] theorem State.withPc_extEn (s : State) (p : Nat) : (s.withPc p).extEn = s.extEn := rfl
@[simp] theorem State.withPc_pc (s : State) (p : Nat) : (s.withPc p).pc = p := rfl
@[simp] theorem State.withPc_rb (s : State) (p : Nat) : (s.withPc p).rb = s.rb := rfl
@[simp] theorem State.withPc_status (s : State) (p : Nat) : (s.withPc p).status = s.status := rfl
@[simp] theorem State.withPc_err (s : State) (p : Nat) : (s.withPc p).err = s.err := rfl
@[simp] theorem State.withPc_params (s : State) (p : Nat) : (s.withPc p).params = s.params := rfl
@[simp] theorem State.withPc_source (s : State) (p : Nat) : (s.withPc p).source = s.source := rfl
@[simp] theorem State.withPc_sink (s : State) (p : Nat) : (s.withPc p).sink = s.sink := rfl

/-! ### withRb -/

@[simp] theorem State.withRb_base (s : State) (v : Int) : (s.withRb v).base = s.base := rfl
@[simp] theorem State.withRb_ext (s : State) (v : Int) : (s.withRb v).ext = s.ext := rfl
@[simp] theorem State.withRb_extEn (s : State) (v : Int) : (s.withRb v).extEn = s.extEn := rfl
@[simp] theorem State.withRb_pc (s : State) (v : Int) : (s.withRb v).pc = s.pc := rfl
@[simp] theorem State.withRb_rb (s : State) (v : Int) : (s.withRb v).rb = v := rfl
@[simp] theorem State.withRb_status (s : State) (v : Int) : (s.withRb v).status = s.status := rfl
@[simp] theorem State.withRb_err (s : State) (v : Int) : (s.withRb v).err = s.err := rfl
@[simp] theorem State.withRb_params (s : State) (v : Int) : (s.withRb v).params = s.params := rfl
@[simp] theorem State.withRb_source (s : State) (v : Int) : (s.withRb v).source = s.source := rfl
@[simp] theorem State.withRb_sink (s : State) (v : Int) : (s.withRb v).sink = s.sink := rfl

/-! ### withStatus -/

@[simp] theorem State.withStatus_base (s : State) (st : Status) : (s.withStatus st).base = s.base := rfl
@[simp] theorem State.withStatus_ext (s : State) (st : Status) : (s.withStatus st).ext = s.ext := rfl
@[simp] theorem State.withStatus_extEn (s : State) (st : Status) : (s.withStatus st).extEn = s.extEn := rfl
@[simp] theorem State.withStatus_pc (s : State) (st : Status) : (s.withStatus st).pc = s.pc := rfl
@[simp] theorem State.withStatus_rb (s : State) (st : Status) : (s.withStatus st).rb = s.rb := rfl
@[simp] theorem State.withStatus_status (s : State) (st : Status) : (s.withStatus st).status = st := rfl
@[simp] theorem State.withStatus_err (s : State) (st : Status) : (s.withStatus st).err = s.err := rfl
@[simp] theorem State.withStatus_params (s : State) (st : Status) : (s.withStatus st).params = s.params := rfl
@[simp] theorem State.withStatus_source (s : State) (st : Status) : (s.withStatus st).source = s.source := rfl
@[simp] theorem State.withStatus_sink (s : State) (st : Status) : (s.withStatus st).sink = s.sink := rfl

/-! ### push -/

@[simp] theorem State.push_base (s : State) (v : Int) : (s.push v).base = s.base := rfl
@[simp] theorem State.push_ext (s : State) (v : Int) : (s.push v).ext = s.ext := rfl
@[simp] theorem State.push_extEn (s : State) (v : Int) : (s.push v).extEn = s.extEn := rfl
@[simp] theorem State.push_pc (s : State) (v : Int) : (s.push v).pc = s.pc := rfl
@[simp] theorem State.push_rb (s : State) (v : Int) : (s.push v).rb = s.rb := rfl
@[simp] theorem State.push_status (s : State) (v : Int) : (s.push v).status = s.status := rfl
@[simp] theorem State.push_err (s : State) (v : Int) : (s.push v).err = s.err := rfl
@[simp] theorem State.push_params (s : State) (v : Int) : (s.push v).params = s.params := rfl
@[simp] theorem State.push_source (s : State) (v : Int) : (s.push v).source = s.source := rfl
@[simp] theorem State.push_sink (s : State) (v : Int) : (s.push v).sink = s.sink ++ [v] := rfl

/-! ### The InputSource -/

@[simp] theorem InputSource.answer_queued (p : Params) (a : Option Int) (as : List (Option Int)) (r : SourceRest) :
    InputSource.answer p ⟨a :: as, r⟩ = a := rfl
@[simp] theorem InputSource.answer_silent (p : Params) : InputSource.answer p ⟨[], .silent⟩ = none := rfl
@[simp] theorem InputSource.answer_steady (p : Params) (a : Option Int) :
    InputSource.answer p ⟨[], .steady a⟩ = a := rfl
@[simp] theorem InputSource.answer_draws (p : Params) (view n : Nat) :
    InputSource.answer p ⟨[], .draws view n⟩ = (freeAnswer p view n).map Subtype.val := rfl
@[simp] theorem InputSource.pulled_queued (a : Option Int) (as : List (Option Int)) (r : SourceRest) :
    InputSource.pulled ⟨a :: as, r⟩ = ⟨as, r⟩ := rfl
@[simp] theorem InputSource.pulled_silent : InputSource.pulled ⟨[], .silent⟩ = ⟨[], .silent⟩ := rfl
@[simp] theorem InputSource.pulled_steady (a : Option Int) :
    InputSource.pulled ⟨[], .steady a⟩ = ⟨[], .steady a⟩ := rfl
@[simp] theorem InputSource.pulled_draws (view n : Nat) :
    InputSource.pulled ⟨[], .draws view n⟩ = ⟨[], .draws view (n + 1)⟩ := rfl
@[simp] theorem InputSource.pulledTimes_zero (src : InputSource) : src.pulledTimes 0 = src := rfl
@[simp] theorem InputSource.pulledTimes_succ (src : InputSource) (n : Nat) :
    src.pulledTimes (n + 1) = src.pulled.pulledTimes n := rfl
@[simp] theorem InputSource.pulled_rest_steady (src : InputSource) (a : Option Int) :
    src.pulled.rest = .steady a ↔ src.rest = .steady a := by
  obtain ⟨_ | ⟨b, as⟩, _ | a' | _⟩ := src <;> simp [InputSource.pulled]

/-- A source whose known answers are cells answers a cell or None, whatever its free draws are. -/
theorem InputSource.answer_isCell {p : Params} {src : InputSource} {v : Int} (h : src.Cells p)
    (ha : src.answer p = some v) : p.IsCell v := by
  obtain ⟨_ | ⟨a, as⟩, r⟩ := src
  · cases r with
    | silent => cases ha
    | steady a => exact h.2 v (congrArg SourceRest.steady ha)
    | draws view n =>
      obtain ⟨⟨w, hw⟩, -, rfl⟩ := Option.map_eq_some_iff.1 ha
      exact hw
  · exact h.1 v (ha ▸ List.mem_cons_self)

/-- A pull keeps that. -/
theorem InputSource.pulled_cells {p : Params} {src : InputSource} (h : src.Cells p) : src.pulled.Cells p := by
  refine ⟨fun v hv => ?_, fun v hv => h.2 v ((src.pulled_rest_steady _).1 hv)⟩
  obtain ⟨_ | ⟨a, as⟩, r⟩ := src
  · cases r <;> cases hv
  · exact h.1 v (List.mem_cons_of_mem _ hv)

/-- Enqueuing a cell keeps it. -/
theorem InputSource.enqueue_cells {p : Params} {src : InputSource} {v : Int} (h : src.Cells p) (hv : p.IsCell v) :
    (src.enqueue v).Cells p := by
  refine ⟨fun w hw => ?_, h.2⟩
  rcases List.mem_append.1 hw with hw | hw
  · exact h.1 w hw
  · obtain rfl : w = v := by simpa using hw
    exact hv

@[simp] theorem State.withPc_answer (s : State) (p : Nat) : (s.withPc p).answer = s.answer := rfl
@[simp] theorem State.withStatus_answer (s : State) (st : Status) : (s.withStatus st).answer = s.answer := rfl

/-! ### pull -/

@[simp] theorem State.pull_base (s : State) : (s.pull).base = s.base := rfl
@[simp] theorem State.pull_ext (s : State) : (s.pull).ext = s.ext := rfl
@[simp] theorem State.pull_extEn (s : State) : (s.pull).extEn = s.extEn := rfl
@[simp] theorem State.pull_pc (s : State) : (s.pull).pc = s.pc := rfl
@[simp] theorem State.pull_rb (s : State) : (s.pull).rb = s.rb := rfl
@[simp] theorem State.pull_status (s : State) : (s.pull).status = s.status := rfl
@[simp] theorem State.pull_err (s : State) : (s.pull).err = s.err := rfl
@[simp] theorem State.pull_params (s : State) : (s.pull).params = s.params := rfl
@[simp] theorem State.pull_source (s : State) : (s.pull).source = s.source.pulled := rfl
@[simp] theorem State.pull_sink (s : State) : (s.pull).sink = s.sink := rfl

/-! ### faultEntry -/

@[simp] theorem State.faultEntry_base (s : State) (e : Err) : (s.faultEntry e).base = s.base := rfl
@[simp] theorem State.faultEntry_ext (s : State) (e : Err) : (s.faultEntry e).ext = s.ext := rfl
@[simp] theorem State.faultEntry_extEn (s : State) (e : Err) : (s.faultEntry e).extEn = s.extEn := rfl
@[simp] theorem State.faultEntry_pc (s : State) (e : Err) : (s.faultEntry e).pc = s.pc := rfl
@[simp] theorem State.faultEntry_rb (s : State) (e : Err) : (s.faultEntry e).rb = s.rb := rfl
@[simp] theorem State.faultEntry_status (s : State) (e : Err) : (s.faultEntry e).status = .faulted := rfl
@[simp] theorem State.faultEntry_err (s : State) (e : Err) : (s.faultEntry e).err = some ⟨s.pc, e⟩ := rfl
@[simp] theorem State.faultEntry_params (s : State) (e : Err) : (s.faultEntry e).params = s.params := rfl
@[simp] theorem State.faultEntry_source (s : State) (e : Err) : (s.faultEntry e).source = s.source := rfl
@[simp] theorem State.faultEntry_sink (s : State) (e : Err) : (s.faultEntry e).sink = s.sink := rfl

/-! ### store -/

@[simp] theorem State.store_base (s : State) (a : Nat) (v : Int) : (s.store a v).base = s.base.set a v := rfl
@[simp] theorem State.store_ext (s : State) (a : Nat) (v : Int) : (s.store a v).ext = if a < s.imageLength then s.ext else s.ext.insert a v := rfl
@[simp] theorem State.store_extEn (s : State) (a : Nat) (v : Int) : (s.store a v).extEn = s.extEn := rfl
@[simp] theorem State.store_pc (s : State) (a : Nat) (v : Int) : (s.store a v).pc = s.pc := rfl
@[simp] theorem State.store_rb (s : State) (a : Nat) (v : Int) : (s.store a v).rb = s.rb := rfl
@[simp] theorem State.store_status (s : State) (a : Nat) (v : Int) : (s.store a v).status = s.status := rfl
@[simp] theorem State.store_err (s : State) (a : Nat) (v : Int) : (s.store a v).err = s.err := rfl
@[simp] theorem State.store_params (s : State) (a : Nat) (v : Int) : (s.store a v).params = s.params := rfl
@[simp] theorem State.store_source (s : State) (a : Nat) (v : Int) : (s.store a v).source = s.source := rfl
@[simp] theorem State.store_sink (s : State) (a : Nat) (v : Int) : (s.store a v).sink = s.sink := rfl

/-! ### enableExtraMemory -/

@[simp] theorem State.enableExtraMemory_base (s : State) : s.enableExtraMemory.base = s.base := rfl
@[simp] theorem State.enableExtraMemory_ext (s : State) : s.enableExtraMemory.ext = s.ext := rfl
@[simp] theorem State.enableExtraMemory_extEn (s : State) : s.enableExtraMemory.extEn = true := rfl
@[simp] theorem State.enableExtraMemory_pc (s : State) : s.enableExtraMemory.pc = s.pc := rfl
@[simp] theorem State.enableExtraMemory_rb (s : State) : s.enableExtraMemory.rb = s.rb := rfl
@[simp] theorem State.enableExtraMemory_status (s : State) : s.enableExtraMemory.status = s.status := rfl
@[simp] theorem State.enableExtraMemory_err (s : State) : s.enableExtraMemory.err = s.err := rfl
@[simp] theorem State.enableExtraMemory_params (s : State) : s.enableExtraMemory.params = s.params := rfl
@[simp] theorem State.enableExtraMemory_source (s : State) : s.enableExtraMemory.source = s.source := rfl
@[simp] theorem State.enableExtraMemory_sink (s : State) : s.enableExtraMemory.sink = s.sink := rfl

/-! ### construct -/

@[simp] theorem State.construct_base (p : Params) (image : List Int) (source : InputSource) :
    (State.construct p image source).base = image := rfl
@[simp] theorem State.construct_ext (p : Params) (image : List Int) (source : InputSource) :
    (State.construct p image source).ext = [] := rfl
@[simp] theorem State.construct_extEn (p : Params) (image : List Int) (source : InputSource) :
    (State.construct p image source).extEn = false := rfl
@[simp] theorem State.construct_pc (p : Params) (image : List Int) (source : InputSource) :
    (State.construct p image source).pc = 0 := rfl
@[simp] theorem State.construct_rb (p : Params) (image : List Int) (source : InputSource) :
    (State.construct p image source).rb = 0 := rfl
@[simp] theorem State.construct_status (p : Params) (image : List Int) (source : InputSource) :
    (State.construct p image source).status = .running := rfl
@[simp] theorem State.construct_err (p : Params) (image : List Int) (source : InputSource) :
    (State.construct p image source).err = none := rfl
@[simp] theorem State.construct_params (p : Params) (image : List Int) (source : InputSource) :
    (State.construct p image source).params = p := rfl
@[simp] theorem State.construct_source (p : Params) (image : List Int) (source : InputSource) :
    (State.construct p image source).source = source := rfl
@[simp] theorem State.construct_sink (p : Params) (image : List Int) (source : InputSource) :
    (State.construct p image source).sink = [] := rfl

/-! ### The image length -/

@[simp] theorem State.withPc_imageLength (s : State) (p : Nat) : (s.withPc p).imageLength = s.imageLength := rfl
@[simp] theorem State.withRb_imageLength (s : State) (v : Int) : (s.withRb v).imageLength = s.imageLength := rfl
@[simp] theorem State.withStatus_imageLength (s : State) (st : Status) : (s.withStatus st).imageLength = s.imageLength := rfl
@[simp] theorem State.push_imageLength (s : State) (v : Int) : (s.push v).imageLength = s.imageLength := rfl
@[simp] theorem State.pull_imageLength (s : State) : (s.pull).imageLength = s.imageLength := rfl
@[simp] theorem State.faultEntry_imageLength (s : State) (e : Err) : (s.faultEntry e).imageLength = s.imageLength := rfl
@[simp] theorem State.enableExtraMemory_imageLength (s : State) : (s.enableExtraMemory).imageLength = s.imageLength := rfl
@[simp] theorem State.store_imageLength (s : State) (a : Nat) (v : Int) :
    (s.store a v).imageLength = s.imageLength := List.length_set
@[simp] theorem State.construct_imageLength (p : Params) (image : List Int) (source : InputSource) :
    (State.construct p image source).imageLength = image.length := rfl

end Sys2Proof.Machine
end

