-- ==== Sys2Proof/Laws/Memory.lean ====
section
/-! SUPPORT. The sparse map and the memory operations: reads after writes, and the canonical form kept. -/

namespace Sys2Proof.Machine

/-! ### The map -/

theorem Memory.lookup_insert_self (m : Memory) (a : Nat) (v : Int) :
    (Memory.insert m a v).lookup a = some v := by
  induction m with
  | nil => simp [Memory.insert, Memory.lookup]
  | cons e m ih =>
    obtain ⟨k, w⟩ := e
    unfold Memory.insert
    split
    · simp [Memory.lookup]
    · split
      · simp [Memory.lookup]
      · simp [Memory.lookup, *]

theorem Memory.lookup_insert_other (m : Memory) {a b : Nat} (v : Int) (h : b ≠ a) :
    (Memory.insert m a v).lookup b = m.lookup b := by
  induction m with
  | nil => simp [Memory.insert, Memory.lookup, h]
  | cons e m ih =>
    obtain ⟨k, w⟩ := e
    unfold Memory.insert
    split
    · simp [Memory.lookup, h]
    · split
      · rename_i hk
        subst hk
        simp [Memory.lookup, h]
      · simp [Memory.lookup, ih]

/-- Every entry after an insertion is the new one or an old one. -/
theorem Memory.mem_insert {m : Memory} {a : Nat} {v : Int} {e : Nat × Int}
    (h : e ∈ Memory.insert m a v) : e = (a, v) ∨ e ∈ m := by
  induction m with
  | nil => simpa [Memory.insert] using h
  | cons x m ih =>
    obtain ⟨k, w⟩ := x
    unfold Memory.insert at h
    split at h
    · simpa using h
    · split at h
      · rcases List.mem_cons.1 h with h | h
        · exact .inl h
        · exact .inr (List.mem_cons_of_mem _ h)
      · rcases List.mem_cons.1 h with h | h
        · exact .inr (h ▸ List.mem_cons_self)
        · exact (ih h).imp_right (List.mem_cons_of_mem _)

/-- An insertion keeps the canonical form. -/
theorem Memory.insert_wf {m : Memory} (h : Memory.wf m) (a : Nat) (v : Int) :
    Memory.wf (Memory.insert m a v) := by
  induction m with
  | nil => simp [Memory.insert, Memory.wf]
  | cons x m ih =>
    obtain ⟨k, w⟩ := x
    obtain ⟨hk, hm⟩ := List.pairwise_cons.1 h
    unfold Memory.insert
    split
    · rename_i hlt
      refine List.pairwise_cons.2 ⟨?_, h⟩
      intro y hy
      rcases List.mem_cons.1 hy with rfl | hy
      · exact hlt
      · exact Nat.lt_trans hlt (hk y hy)
    · split
      · rename_i heq
        subst heq
        exact List.pairwise_cons.2 ⟨hk, hm⟩
      · refine List.pairwise_cons.2 ⟨?_, ih hm⟩
        intro y hy
        rcases Memory.mem_insert hy with rfl | hy
        · exact Nat.lt_of_le_of_ne (Nat.not_lt.1 ‹_›) (Ne.symm ‹_›)
        · exact hk y hy

/-! ### MemRead and MemWrite -/

/-- A read depends on BASE, EXT and EXT_EN only. -/
theorem State.memRead_congr {s t : State} (hb : t.base = s.base) (he : t.ext = s.ext)
    (hen : t.extEn = s.extEn) : t.memRead = s.memRead := by
  funext a
  simp [State.memRead, hb, he, hen]

@[simp] theorem State.withPc_memRead (s : State) (p : Nat) : (s.withPc p).memRead = s.memRead := rfl
@[simp] theorem State.withRb_memRead (s : State) (v : Int) : (s.withRb v).memRead = s.memRead := rfl
@[simp] theorem State.withStatus_memRead (s : State) (st : Status) : (s.withStatus st).memRead = s.memRead := rfl
@[simp] theorem State.push_memRead (s : State) (v : Int) : (s.push v).memRead = s.memRead := rfl
@[simp] theorem State.pull_memRead (s : State) : s.pull.memRead = s.memRead := rfl
@[simp] theorem State.faultEntry_memRead (s : State) (e : Err) : (s.faultEntry e).memRead = s.memRead := rfl

/-- R53, the base region. -/
theorem State.memRead_base {s : State} {a : Nat} (h : a < s.imageLength) :
    s.memRead a = .ok (s.base[a]'h) := by
  simp [State.memRead, List.getElem?_eq_getElem h]

/-- R53, the enabled extension. -/
theorem State.memRead_ext {s : State} {a : Nat} (h : s.imageLength ≤ a) (hen : s.extEn = true) :
    s.memRead a = .ok ((s.ext.lookup a).getD unlistedCell) := by
  simp [State.memRead, List.getElem?_eq_none h, hen]

/-- R53, out of bounds. -/
theorem State.memRead_outOfBounds {s : State} {a : Nat} (h : s.imageLength ≤ a) (hen : s.extEn = false) :
    s.memRead a = .error (.readMemoryOutOfBounds a) := by
  simp [State.memRead, List.getElem?_eq_none h, hen]

/-- The store is read back. -/
theorem State.memRead_store_self {s : State} {a : Nat} (v : Int) (h : s.Accessible a) :
    (s.store a v).memRead a = .ok v := by
  by_cases ha : a < s.imageLength
  · rw [State.memRead_base (by simpa only [State.store_imageLength] using ha)]
    simp
  · have h' : (s.store a v).imageLength ≤ a := by simpa using ha
    have hen : s.extEn = true := h.resolve_left ha
    rw [State.memRead_ext h' (by simpa using hen)]
    simp [ha, Memory.lookup_insert_self]

/-- Every other address reads as before. -/
theorem State.memRead_store_other (s : State) {a b : Nat} (v : Int) (h : b ≠ a) :
    (s.store a v).memRead b = s.memRead b := by
  have hb : (s.base.set a v)[b]? = s.base[b]? := List.getElem?_set_ne (Ne.symm h)
  have he : (if a < s.imageLength then s.ext else s.ext.insert a v).lookup b = s.ext.lookup b := by
    split
    · rfl
    · exact Memory.lookup_insert_other _ _ h
  simp only [State.memRead, State.store_base, State.store_ext, State.store_extEn, hb, he]

theorem State.memWrite_accessible {s : State} {a : Nat} (v : Int) (h : s.Accessible a) :
    s.memWrite a v = .ok (s.store a v) := if_pos h

theorem State.memWrite_outOfBounds {s : State} {a : Nat} (v : Int) (h : ¬ s.Accessible a) :
    s.memWrite a v = .error (.writeMemoryOutOfBounds a) := if_neg h

/-- Everything MemWrite can do when it answers a state. -/
theorem State.memWrite_ok {s t : State} {a : Nat} {v : Int} (h : s.memWrite a v = .ok t) :
    s.Accessible a ∧ t = s.store a v := by
  unfold State.memWrite at h
  split at h
  · exact ⟨‹_›, (Except.ok.inj h).symm⟩
  · cases h

/-! ### The canonical form, kept by every memory operation -/

theorem State.store_wf {s : State} (h : Memory.wf s.ext) (a : Nat) (v : Int) :
    Memory.wf (s.store a v).ext := by
  rw [State.store_ext]
  split
  · exact h
  · exact Memory.insert_wf h a v

theorem State.memWrite_wf {s t : State} (h : Memory.wf s.ext) {a : Nat} {v : Int}
    (hw : s.memWrite a v = .ok t) : Memory.wf t.ext := by
  rw [(State.memWrite_ok hw).2]
  exact State.store_wf h a v

theorem State.place_wf {s : State} (h : Memory.wf s.ext) (a : Nat) (v : Int) :
    Memory.wf (s.place a v).ext := by
  unfold State.place
  split
  · exact State.store_wf h a v
  · exact h

theorem State.placeAll_wf {s : State} (h : Memory.wf s.ext) (a : Nat) (vs : List Int) :
    Memory.wf (s.placeAll a vs).ext := by
  induction vs generalizing s a with
  | nil => exact h
  | cons v vs ih => exact ih (State.place_wf h a v) _

theorem State.construct_wf (p : Params) (image : List Int) (source : InputSource) :
    Memory.wf (State.construct p image source).ext := List.Pairwise.nil

theorem State.reset_wf : Memory.wf State.reset.ext := List.Pairwise.nil

end Sys2Proof.Machine
end

