-- ==== Sys2Proof/Laws/Ops.lean ====
section
/-! SUPPORT. One lemma per shared operation: what it answers, and everything it can do. -/

namespace Sys2Proof.Machine

/-! ### Binding errors -/

@[simp] theorem bind_ok {α β : Type} (x : α) (f : α → Except Err β) : (Except.ok x).bind f = f x := rfl
@[simp] theorem bind_error {α β : Type} (e : Err) (f : α → Except Err β) :
    (Except.error e : Except Err α).bind f = .error e := rfl

/-- What a bind that answers `ok` went through. -/
theorem bind_eq_ok {α β : Type} {x : Except Err α} {f : α → Except Err β} {r : β} (h : x.bind f = .ok r) :
    ∃ a, x = .ok a ∧ f a = .ok r := by
  cases x with
  | error e => cases h
  | ok a => exact ⟨a, rfl, h⟩

/-- What a bind that raises went through. -/
theorem bind_eq_error {α β : Type} {x : Except Err α} {f : α → Except Err β} {e : Err}
    (h : x.bind f = .error e) : x = .error e ∨ ∃ a, x = .ok a ∧ f a = .error e := by
  cases x with
  | error e' => exact .inl (by simpa using h)
  | ok a => exact .inr ⟨a, rfl, h⟩

/-! ### Narrowing -/

theorem toPtr_of_isPtr {p : Params} {v : Int} (what : PtrUse) (h : p.IsPtr v) :
    toPtr p what v = .ok v.toNat := if_pos h

theorem toPtr_of_not_isPtr {p : Params} {v : Int} (what : PtrUse) (h : ¬ p.IsPtr v) :
    toPtr p what v = .error (.memoryCellIsInvalidPointer what v) := if_neg h

/-- Everything `toPtr` can do when it answers a pointer. -/
theorem toPtr_ok {p : Params} {what : PtrUse} {v : Int} {a : Nat} (h : toPtr p what v = .ok a) :
    p.IsPtr v ∧ (a : Int) = v ∧ a ≤ p.ptrMax := by
  unfold toPtr at h
  split at h
  · rename_i hp
    have := Except.ok.inj h
    obtain ⟨h0, h1⟩ := hp
    exact ⟨⟨h0, h1⟩, by omega, by omega⟩
  · cases h

/-- A pointer narrows to itself. -/
theorem toPtr_natCast {p : Params} (what : PtrUse) {a : Nat} (h : a ≤ p.ptrMax) :
    toPtr p what (a : Int) = .ok a := by
  rw [toPtr_of_isPtr what ⟨Int.natCast_nonneg a, by exact_mod_cast h⟩]
  rfl

theorem toCell_of_isCell {p : Params} {v : Int} (h : p.IsCell v) : toCell p v = .ok v := if_pos h

theorem toCell_fault {p : Params} {v : Int} (h : ¬ p.IsCell v) (hm : p.overflow = .fault) :
    toCell p v = .error (.arithmeticOverflow v) := by
  simp [toCell, if_neg h, hm]

theorem toCell_wrap {p : Params} {v : Int} (h : ¬ p.IsCell v) (hm : p.overflow = .wrap) :
    toCell p v = .ok (wrapCell p v) := by
  simp [toCell, if_neg h, hm]

/-! ### The end of a cycle -/

@[simp] theorem State.finish_error (s : State) (e : Err) : s.finish (.error e) = s.faultEntry e := rfl
@[simp] theorem State.finish_wait (s : State) : s.finish (.ok .wait) = s.withStatus .waitingOnInput := rfl
@[simp] theorem State.finish_stop (s : State) : s.finish (.ok .stop) = s.withStatus .halted := rfl

theorem State.finish_go (s : State) (action : CommitAction) (next : Int) (which : PtrUse) :
    s.finish (.ok (.go action next which)) =
      match s.advance action next which with
      | .error e => s.faultEntry e
      | .ok s' => s' := rfl

/-- Everything the three steps of a `Go` effect can do when they answer a state. -/
theorem State.advance_ok {s t : State} {action : CommitAction} {next : Int} {which : PtrUse}
    (h : s.advance action next which = .ok t) :
    ∃ p s', toPtr s.params which next = .ok p ∧ s.perform action = .ok s' ∧ t = s'.withPc p := by
  obtain ⟨p, hp, h⟩ := bind_eq_ok h
  obtain ⟨s', hs, h⟩ := bind_eq_ok h
  exact ⟨p, s', hp, hs, (Except.ok.inj h).symm⟩

/-- What a `Go` effect can raise: the pointer check of the next pc, or the bounds check of the write. -/
theorem State.advance_error {s : State} {action : CommitAction} {next : Int} {which : PtrUse} {e : Err}
    (h : s.advance action next which = .error e) :
    (¬ s.params.IsPtr next ∧ e = .memoryCellIsInvalidPointer which next) ∨
    (s.params.IsPtr next ∧ ∃ d v, action = .memWrite d v ∧ ¬ s.Accessible d ∧ e = .writeMemoryOutOfBounds d) := by
  by_cases hp : s.params.IsPtr next
  · simp only [State.advance, toPtr_of_isPtr which hp, bind_ok] at h
    rcases bind_eq_error h with h | ⟨s', -, h⟩
    · cases action with
      | memWrite d v =>
        by_cases ha : s.Accessible d
        · rw [State.perform, State.memWrite_accessible v ha] at h
          cases h
        · rw [State.perform, State.memWrite_outOfBounds v ha] at h
          exact .inr ⟨hp, d, v, rfl, ha, (Except.error.inj h).symm⟩
      | nothing => cases h
      | outputPush v => cases h
      | setRb v => cases h
    · cases h
  · simp only [State.advance, toPtr_of_not_isPtr which hp, bind_error] at h
    exact .inl ⟨hp, (Except.error.inj h).symm⟩

/-- A `Go` effect whose next pc is a pointer and whose action succeeds is committed whole. -/
theorem State.finish_go_ok {s s' : State} {action : CommitAction} {next : Int} {which : PtrUse} {p : Nat}
    (hp : toPtr s.params which next = .ok p) (ha : s.perform action = .ok s') :
    s.finish (.ok (.go action next which)) = s'.withPc p := by
  simp [State.finish_go, State.advance, hp, ha]

/-- Everything the end of a cycle can do. -/
theorem State.finish_cases (s : State) (r : Except Err Effect) :
    (∃ e, s.finish r = s.faultEntry e ∧
      (r = .error e ∨ ∃ action next which, r = .ok (.go action next which) ∧
        s.advance action next which = .error e)) ∨
    (r = .ok .wait ∧ s.finish r = s.withStatus .waitingOnInput) ∨
    (r = .ok .stop ∧ s.finish r = s.withStatus .halted) ∨
    (∃ action next which p s', r = .ok (.go action next which) ∧ toPtr s.params which next = .ok p ∧
      s.perform action = .ok s' ∧ s.finish r = s'.withPc p) := by
  cases r with
  | error e => exact .inl ⟨e, rfl, .inl rfl⟩
  | ok eff =>
    cases eff with
    | wait => exact .inr (.inl ⟨rfl, rfl⟩)
    | stop => exact .inr (.inr (.inl ⟨rfl, rfl⟩))
    | go action next which =>
      cases h : s.advance action next which with
      | error e => exact .inl ⟨e, by rw [State.finish_go, h], .inr ⟨action, next, which, rfl, h⟩⟩
      | ok t =>
        obtain ⟨p, s', hp, ha, rfl⟩ := State.advance_ok h
        exact .inr (.inr (.inr ⟨action, next, which, p, s', rfl, hp, ha, State.finish_go_ok hp ha⟩))

end Sys2Proof.Machine
end

