-- ==== Sys2Proof/Laws/PerInstr.lean ====
section
/-! SUPPORT. Per-instruction facts about the encoder, one lemma per constructor. -/

namespace Sys2Proof.Laws.EncodedLength

/-- An instruction is encoded in as many cells as its width (30_encoding.md R82, R96). -/
def Statement (i : Instr) : Prop := (encode i).length = i.width

theorem add (a b dst : Param) : Statement (.add a b dst) := rfl
theorem mul (a b dst : Param) : Statement (.mul a b dst) := rfl
theorem inp (dst : Param) : Statement (.inp dst) := rfl
theorem out (v : Param) : Statement (.out v) := rfl
theorem jt (cond target : Param) : Statement (.jt cond target) := rfl
theorem jf (cond target : Param) : Statement (.jf cond target) := rfl
theorem lt (a b dst : Param) : Statement (.lt a b dst) := rfl
theorem eq (a b dst : Param) : Statement (.eq a b dst) := rfl
theorem arb (v : Param) : Statement (.arb v) := rfl
theorem hlt : Statement .hlt := rfl

end Sys2Proof.Laws.EncodedLength
end

