-- ==== Sys2Proof/Laws/Step.lean ====
section
/-! SUPPORT. What an instruction and a step can do, said once. -/

namespace Sys2Proof.Machine

/-! ### Resolution -/

/-- Everything `resolveIn` can do when it answers a value. -/
theorem State.resolveIn_ok {s : State} {q : Param} {v : Int} (h : s.resolveIn q = .ok v) :
    q = .immediate v ∨
    (∃ r a, q = .position r ∧ toPtr s.params .operand r = .ok a ∧ s.memRead a = .ok v) ∨
    (∃ r a, q = .relative r ∧ toPtr s.params .operand (s.rb + r) = .ok a ∧ s.memRead a = .ok v) := by
  cases q with
  | immediate r =>
    obtain rfl := Except.ok.inj h
    exact .inl rfl
  | position r =>
    obtain ⟨a, ha, hv⟩ := bind_eq_ok h
    exact .inr (.inl ⟨r, a, rfl, ha, hv⟩)
  | relative r =>
    obtain ⟨a, ha, hv⟩ := bind_eq_ok h
    exact .inr (.inr ⟨r, a, rfl, ha, hv⟩)

/-- Everything `resolveOut` can do when it answers an address: it is a pointer, from a Position or Relative
parameter. -/
theorem State.resolveOut_ok {s : State} {op : Opcode} {q : Param} {d : Nat} (h : s.resolveOut op q = .ok d) :
    d ≤ s.params.ptrMax ∧
    ((q.mode = .position ∧ (d : Int) = q.raw) ∨ (q.mode = .relative ∧ (d : Int) = s.rb + q.raw)) := by
  cases q with
  | immediate r => cases h
  | position r => exact ⟨(toPtr_ok h).2.2, .inl ⟨rfl, (toPtr_ok h).2.1⟩⟩
  | relative r => exact ⟨(toPtr_ok h).2.2, .inr ⟨rfl, (toPtr_ok h).2.1⟩⟩

/-- What `resolveIn` can raise. -/
theorem State.resolveIn_error {s : State} {q : Param} {e : Err} (h : s.resolveIn q = .error e) :
    (∃ v, e = .memoryCellIsInvalidPointer .operand v) ∨ ∃ a, e = .readMemoryOutOfBounds a := by
  have key : ∀ v : Int, (toPtr s.params .operand v).bind s.memRead = .error e →
      (∃ v, e = .memoryCellIsInvalidPointer .operand v) ∨ ∃ a, e = .readMemoryOutOfBounds a := by
    intro v h
    by_cases hp : s.params.IsPtr v
    · rw [toPtr_of_isPtr _ hp, bind_ok] at h
      by_cases ha : v.toNat < s.imageLength
      · rw [State.memRead_base ha] at h
        cases h
      · cases hen : s.extEn with
        | true =>
          rw [State.memRead_ext (Nat.not_lt.1 ha) hen] at h
          cases h
        | false =>
          rw [State.memRead_outOfBounds (Nat.not_lt.1 ha) hen] at h
          exact .inr ⟨_, (Except.error.inj h).symm⟩
    · rw [toPtr_of_not_isPtr _ hp] at h
      exact .inl ⟨_, (Except.error.inj h).symm⟩
  cases q with
  | immediate r => cases h
  | position r => exact key _ h
  | relative r => exact key _ h

/-- What `resolveOut` can raise. -/
theorem State.resolveOut_error {s : State} {op : Opcode} {q : Param} {e : Err} (h : s.resolveOut op q = .error e) :
    (∃ v, e = .memoryCellIsInvalidPointer .output v) ∨ (q.mode = .immediate ∧ e = .effectMismatch op) := by
  have key : ∀ v : Int, toPtr s.params .output v = .error e → ∃ v, e = .memoryCellIsInvalidPointer .output v := by
    intro v h
    by_cases hp : s.params.IsPtr v
    · rw [toPtr_of_isPtr _ hp] at h
      cases h
    · rw [toPtr_of_not_isPtr _ hp] at h
      exact ⟨_, (Except.error.inj h).symm⟩
  cases q with
  | immediate r => exact .inr ⟨rfl, (Except.error.inj h).symm⟩
  | position r => exact .inl (key _ h)
  | relative r => exact .inl (key _ h)

/-- What `toCell` can raise. -/
theorem toCell_error {p : Params} {v : Int} {e : Err} (h : toCell p v = .error e) :
    e = .arithmeticOverflow v := by
  unfold toCell at h
  split at h
  · cases h
  · split at h
    · exact (Except.error.inj h).symm
    · cases h

/-! ### Instructions -/

/-- The errors an instruction raises before the end of its cycle: EffectMismatch only from an Immediate output
parameter, which the decoder never makes. -/
def MayRaise (i : Instr) (e : Err) : Prop :=
  ∀ op, e = .effectMismatch op → ∃ q, i.outputParam = some q ∧ q.mode = .immediate

/-- The values an instruction can store: a narrowed exact result, a truth value, or the pulled value. -/
def MayStore (s : State) (i : Instr) (r : Int) : Prop :=
  (∃ x, toCell s.params x = .ok r) ∨ r = 0 ∨ r = 1 ∨ ((∃ dst, i = .inp dst) ∧ s.answer = some r)

/-- The effects an instruction can have (40_execution.md R123). -/
def MayAnswer (s : State) (i : Instr) : Except Err Effect → Prop
  | .error e => MayRaise i e
  | .ok .wait => ∃ dst, i = .inp dst ∧ s.answer = none
  | .ok .stop => i = .hlt
  | .ok (.go .nothing _ _) => ∃ cond target, i = .jt cond target ∨ i = .jf cond target
  | .ok (.go (.memWrite d r) _ _) =>
    (∃ dst, i.outputParam = some dst ∧ s.resolveOut i.opcode dst = .ok d) ∧ MayStore s i r
  | .ok (.go (.outputPush x) _ _) => ∃ v, i = .out v ∧ s.resolveIn v = .ok x
  | .ok (.go (.setRb y) _ _) => ∃ v x, i = .arb v ∧ s.resolveIn v = .ok x ∧ toCell s.params (s.rb + x) = .ok y

@[simp] theorem mayAnswer_error (s : State) (i : Instr) (e : Err) :
    MayAnswer s i (.error e) = MayRaise i e := rfl

theorem mayRaise_of_resolveIn {s : State} {q : Param} {e : Err} (i : Instr) (h : s.resolveIn q = .error e) :
    MayRaise i e := by
  rintro op rfl
  rcases State.resolveIn_error h with ⟨v, h⟩ | ⟨a, h⟩ <;> cases h

theorem mayRaise_of_resolveOut {s : State} {op : Opcode} {q : Param} {e : Err} {i : Instr}
    (hq : i.outputParam = some q) (h : s.resolveOut op q = .error e) : MayRaise i e := by
  rintro op rfl
  rcases State.resolveOut_error h with ⟨v, h⟩ | ⟨hm, -⟩
  · cases h
  · exact ⟨q, hq, hm⟩

theorem mayRaise_of_toCell {p : Params} {v : Int} {e : Err} (i : Instr) (h : toCell p v = .error e) :
    MayRaise i e := by
  rintro op rfl
  cases toCell_error h

/-- The shape of Add, Multiply, LessThan and Equals, for an ALU that answers a storable value or overflows. -/
theorem State.operateToMemory_mayAnswer (s : State) {op : Opcode} (a b : Param) {dst : Param}
    {alu : Int → Int → Except Err Int} {i : Instr} (hd : i.outputParam = some dst) (ho : i.opcode = op)
    (herr : ∀ x y e, alu x y = .error e → MayRaise i e) (hok : ∀ x y r, alu x y = .ok r → MayStore s i r) :
    MayAnswer s i (s.operateToMemory op a b dst alu) := by
  cases ha : s.resolveIn a with
  | error e => simpa [State.operateToMemory, ha] using mayRaise_of_resolveIn i ha
  | ok x =>
    cases hb : s.resolveIn b with
    | error e => simpa [State.operateToMemory, ha, hb] using mayRaise_of_resolveIn i hb
    | ok y =>
      cases hout : s.resolveOut op dst with
      | error e => simpa [State.operateToMemory, ha, hb, hout] using mayRaise_of_resolveOut hd hout
      | ok d =>
        cases hr : alu x y with
        | error e => simpa [State.operateToMemory, ha, hb, hout, hr] using herr x y e hr
        | ok r =>
          simp only [State.operateToMemory, ha, hb, hout, hr, bind_ok]
          exact ⟨⟨dst, hd, ho ▸ hout⟩, hok x y r hr⟩

/-- The shape of the two jumps. -/
theorem State.operateJump_mayAnswer (s : State) {op : Opcode} {cond target : Param} (taken : Int → Bool)
    {i : Instr} (hi : i = .jt cond target ∨ i = .jf cond target) :
    MayAnswer s i (s.operateJump op cond target taken) := by
  cases hc : s.resolveIn cond with
  | error e => simpa [State.operateJump, hc] using mayRaise_of_resolveIn i hc
  | ok c =>
    cases ht : s.resolveIn target with
    | error e => simpa [State.operateJump, hc, ht] using mayRaise_of_resolveIn i ht
    | ok t =>
      simp only [State.operateJump, hc, ht, bind_ok]
      split <;> exact ⟨cond, target, hi⟩

theorem lessThan_zero_or_one (x y : Int) : lessThan x y = 0 ∨ lessThan x y = 1 := by
  unfold lessThan truthCell
  split
  · exact .inr rfl
  · exact .inl rfl

theorem equals_zero_or_one (x y : Int) : equals x y = 0 ∨ equals x y = 1 := by
  unfold equals truthCell
  split
  · exact .inr rfl
  · exact .inl rfl

/-- Every instruction answers a next state: the end of a cycle on the state (after the pull, for an Input), with
an effect the instruction can have. -/
theorem exec_eq_finish (i : Instr) (s : State) :
    ∃ s₀ r, exec i s = .next (s₀.finish r) ∧ (s₀ = s ∨ ((∃ dst, i = .inp dst) ∧ s₀ = s.pull)) ∧
      MayAnswer s i r := by
  cases i with
  | add a b dst =>
    exact ⟨s, _, rfl, .inl rfl, s.operateToMemory_mayAnswer a b rfl rfl
      (fun _ _ _ h => mayRaise_of_toCell _ h) (fun _ _ _ h => .inl ⟨_, h⟩)⟩
  | mul a b dst =>
    exact ⟨s, _, rfl, .inl rfl, s.operateToMemory_mayAnswer a b rfl rfl
      (fun _ _ _ h => mayRaise_of_toCell _ h) (fun _ _ _ h => .inl ⟨_, h⟩)⟩
  | lt a b dst =>
    exact ⟨s, _, rfl, .inl rfl, s.operateToMemory_mayAnswer a b rfl rfl nofun
      (fun x y _ h => Except.ok.inj h ▸ .inr ((lessThan_zero_or_one x y).imp_right .inl))⟩
  | eq a b dst =>
    exact ⟨s, _, rfl, .inl rfl, s.operateToMemory_mayAnswer a b rfl rfl nofun
      (fun x y _ h => Except.ok.inj h ▸ .inr ((equals_zero_or_one x y).imp_right .inl))⟩
  | jt cond target => exact ⟨s, _, rfl, .inl rfl, s.operateJump_mayAnswer _ (.inl rfl)⟩
  | jf cond target => exact ⟨s, _, rfl, .inl rfl, s.operateJump_mayAnswer _ (.inr rfl)⟩
  | hlt => exact ⟨s, _, rfl, .inl rfl, rfl⟩
  | out v =>
    refine ⟨s, _, rfl, .inl rfl, ?_⟩
    cases h : s.resolveIn v with
    | error e => simpa [State.operateOnValue, h] using mayRaise_of_resolveIn _ h
    | ok x =>
      simp only [State.operateOnValue, h, bind_ok]
      exact ⟨v, rfl, h⟩
  | arb v =>
    refine ⟨s, _, rfl, .inl rfl, ?_⟩
    cases h : s.resolveIn v with
    | error e => simpa [State.operateOnValue, h] using mayRaise_of_resolveIn _ h
    | ok x =>
      cases h' : toCell s.params (s.rb + x) with
      | error e => simpa [State.operateOnValue, h, h', Except.map] using mayRaise_of_toCell _ h'
      | ok y =>
        simp only [State.operateOnValue, h, h', Except.map, bind_ok]
        exact ⟨v, x, rfl, h, h'⟩
  | inp dst =>
    cases h : s.resolveOut .inp dst with
    | error e =>
      exact ⟨s, .error e, by simp [exec, execInp, h], .inl rfl, mayRaise_of_resolveOut rfl h⟩
    | ok d =>
      refine ⟨s.pull, _, by simp only [exec, execInp, h]; rfl, .inr ⟨⟨dst, rfl⟩, rfl⟩, ?_⟩
      cases ha : s.answer with
      | none => exact ⟨dst, rfl, ha⟩
      | some v => exact ⟨⟨dst, rfl, h⟩, .inr (.inr (.inr ⟨⟨dst, rfl⟩, ha⟩))⟩

/-! ### Cycles and steps -/

theorem State.cycle_of_error {s : State} {e : Err} (h : s.fetchDecode = .error e) :
    s.cycle = .next (s.faultEntry e) := by
  simp [State.cycle, h]

theorem State.cycle_of_ok {s : State} {i : Instr} (h : s.fetchDecode = .ok i) : s.cycle = exec i s := by
  simp [State.cycle, h]

theorem step_running {s : State} (h : s.status = .running) : step s = s.cycle := by
  simp [step, State.stepByStatus, h]

theorem step_waiting {s : State} (h : s.status = .waitingOnInput) :
    step s = (s.withStatus .running).cycle := by
  simp [step, State.stepByStatus, h]

theorem step_halted {s : State} (h : s.status = .halted) : step s = .next s := by
  simp [step, State.stepByStatus, h]

theorem step_faulted {s : State} (h : s.status = .faulted) : step s = .next s := by
  simp [step, State.stepByStatus, h]

/-- The parameter fetch depends on memory, pc and the parameters only. -/
theorem State.fetchParams_congr {s t : State} (hm : t.memRead = s.memRead) (hpc : t.pc = s.pc)
    (hp : t.params = s.params) (i : Nat) (ms : List Mode) : t.fetchParams i ms = s.fetchParams i ms := by
  induction ms generalizing i with
  | nil => rfl
  | cons m ms ih => simp [State.fetchParams, hm, hpc, hp, ih]

/-- So does the decode of R86. -/
theorem State.fetchDecode_congr {s t : State} (hm : t.memRead = s.memRead) (hpc : t.pc = s.pc)
    (hp : t.params = s.params) : t.fetchDecode = s.fetchDecode := by
  simp [State.fetchDecode, hm, hpc, State.fetchParams_congr hm hpc hp]

@[simp] theorem State.withStatus_fetchDecode (s : State) (st : Status) :
    (s.withStatus st).fetchDecode = s.fetchDecode := State.fetchDecode_congr rfl rfl rfl

/-- Resolution depends on memory, rb and the parameters only. -/
@[simp] theorem State.withStatus_resolveIn (s : State) (st : Status) (q : Param) :
    (s.withStatus st).resolveIn q = s.resolveIn q := by
  cases q <;> rfl

@[simp] theorem State.withStatus_resolveOut (s : State) (st : Status) (op : Opcode) (q : Param) :
    (s.withStatus st).resolveOut op q = s.resolveOut op q := by
  cases q <;> rfl

/-! ### Runs of the host's machine -/

theorem core_run_zero (s : State) : Sys2Proof.core.run 0 s = .next s := rfl

/-- A run goes through the first step's next state. -/
theorem core_run_succ {s t : State} (h : step s = .next t) (n : Nat) :
    Sys2Proof.core.run (n + 1) s = Sys2Proof.core.run n t := by
  have h' : Sys2Proof.core.step s = .next t := h
  simp only [Host.Core.run, h']

/-- Everything the parameter fetch answers: one parameter per mode, each with the cell read at its address. -/
theorem State.fetchParams_ok {s : State} {ms : List Mode} {i : Nat} {ps : List Param}
    (h : s.fetchParams i ms = .ok ps) :
    ps.map Param.mode = ms ∧
    ∀ k (hk : k < ps.length), s.pc + i + k ≤ s.params.ptrMax ∧ s.memRead (s.pc + i + k) = .ok (ps[k]).raw := by
  induction ms generalizing i ps with
  | nil =>
    obtain rfl := Except.ok.inj h
    exact ⟨rfl, fun k hk => absurd hk (Nat.not_lt_zero k)⟩
  | cons m ms ih =>
    obtain ⟨a, ha, h⟩ := bind_eq_ok h
    obtain ⟨r, hr, h⟩ := bind_eq_ok h
    obtain ⟨ps', hps, h⟩ := bind_eq_ok h
    obtain rfl := Except.ok.inj h
    obtain ⟨hm, hall⟩ := ih hps
    obtain ⟨-, hai, hamax⟩ := toPtr_ok ha
    have hae : a = s.pc + i := by omega
    refine ⟨by simp [hm], ?_⟩
    intro k hk
    cases k with
    | zero =>
      subst hae
      simpa using ⟨hamax, hr⟩
    | succ k =>
      have := hall k (by simpa using hk)
      simpa [Nat.add_assoc, Nat.add_comm 1 k, Nat.add_left_comm] using this

end Sys2Proof.Machine
end

