-- ==== Sys2Proof/Tests/Slice0.lean ====
section
/-! SUPPORT. Small tests, expected results from spec/95_test_vectors.md or by hand from the rules, and one witness
for each statement that has hypotheses (each clause of it, at a boundary where the clause has a range). -/

namespace Sys2Proof.Tests
open Sys2Proof.Machine

/-- A CORE constructed with an image and nothing to read. -/
def st (image : List Int) : State := State.construct Params.standard image .empty

/-- The same with the extension enabled. -/
def stExt (image : List Int) : State := (st image).enableExtraMemory

/-- The same with answers to come from the InputSource. -/
def stIn (image : List Int) (answers : List (Option Int)) : State := 
  State.construct Params.standard image ⟨answers, .silent⟩

/-- The same under OVERFLOW_MODE = wrap. -/
def stWrap (image : List Int) : State := State.construct ⟨64, 64, .wrap⟩ image .empty

/-- The next state of a step, where there is one. -/
def after (s : State) : Option State :=
  match step s with
  | .next t => some t
  | .fault _ => none
  | .refused _ => none

/-- The error record after a step. -/
def errAfter (s : State) : Option ErrRecord := (after s).bind State.err

/-- What a list of cells decodes to, where it does. -/
def decoded (cells : List Int) : Option (Instr × List Int) := (decode cells).toOption

/-! ### WellFormed refuses -/

theorem test_wf_output_immediate :
    [Instr.add (.immediate 0) (.immediate 0) (.immediate 0), .mul (.position 0) (.position 0) (.immediate 0),
     .lt (.position 0) (.position 0) (.immediate 0), .eq (.position 0) (.position 0) (.immediate 0),
     .inp (.immediate 0)].map (Instr.wellFormed Params.standard) = [false, false, false, false, false] := by decide

theorem test_wf_raw_out_of_range :
    [Instr.add (.immediate 9223372036854775808) (.position 0) (.position 0),
     .mul (.position 0) (.immediate (-9223372036854775809)) (.position 0),
     .lt (.position 0) (.position 0) (.relative 9223372036854775808),
     .eq (.relative 9223372036854775808) (.position 0) (.position 0), .inp (.position 9223372036854775808),
     .out (.immediate 9223372036854775808), .jt (.immediate 9223372036854775808) (.position 0),
     .jf (.position 0) (.immediate 9223372036854775808),
     .arb (.immediate (-9223372036854775809))].all (Instr.wellFormed Params.standard · == false) = true := by decide

theorem test_wf_accepts_the_range :
    Instr.wellFormed Params.standard
      (.add (.immediate 9223372036854775807) (.relative (-9223372036854775808)) (.relative (-1))) = true := by decide

/-! ### Decoding: cells written out from 30_encoding.md R81, R82 (vectors V-D of 95_test_vectors.md where named) -/

theorem test_decode_add : decoded [21201, 5, -1, 5] =
    some (.add (.relative 5) (.immediate (-1)) (.relative 5), []) := by decide
theorem test_decode_mul : decoded [1002, 4, 3, 4, 33] =
    some (.mul (.position 4) (.immediate 3) (.position 4), [33]) := by decide
theorem test_decode_in : decoded [203, -9] = some (.inp (.relative (-9)), []) := by decide
theorem test_decode_out_ignores_digit_6 : decoded [1000004, 0, 99] = some (.out (.position 0), [99]) := by decide
theorem test_decode_jt : decoded [1205, 5, 4] = some (.jt (.relative 5) (.immediate 4), []) := by decide
theorem test_decode_jf : decoded [1006, 101, 0] = some (.jf (.position 101) (.immediate 0), []) := by decide
theorem test_decode_lt : decoded [20107, 1, 2, 3] =
    some (.lt (.immediate 1) (.position 2) (.relative 3), []) := by decide
theorem test_decode_eq : decoded [1008, 100, 16, 101] =
    some (.eq (.position 100) (.immediate 16) (.position 101), []) := by decide
theorem test_decode_arb : decoded [209, 4] = some (.arb (.relative 4), []) := by decide
theorem test_decode_hlt_ignores_upper_digits : decoded [11199] = some (.hlt, []) := by decide
theorem test_decode_rejects : [decoded [0], decoded [98], decoded [-1], decoded [-99], decoded [301, 0, 0, 0],
    decoded [10001, 0, 0, 0], decoded [103, 0], decoded [1, 0, 0]].all Option.isNone = true := by decide
theorem test_decode_table_words : [1, 2, 3, 4, 5, 6, 7, 8, 9, 99].map (fun w => (decodeTableWord 8 w).map Instr.opcode) =
    Opcode.table.map some := by decide
theorem test_decode_second_word_is_the_first_parameter :
    decodeTableWord 128 (104 + 2 ^ 64 * (2 ^ 64 - 7)) = some (.out (.immediate (-7))) := by decide

/-! ### One step each -/

/-- V-A1. -/
theorem test_add : (after (st [1, 5, 6, 7, 99, 3, 4, 0])).map (fun t => (t.base[7]?, t.pc)) = some (some 7, 4) := by
  decide
/-- V-A10: the overflow comes before the write check. -/
theorem test_add_overflow : errAfter (st [1101, 9223372036854775807, 1, 50, 99]) =
    some ⟨0, .arithmeticOverflow 9223372036854775808⟩ := by decide
/-- V-A9: exactly CELL_MIN. -/
theorem test_mul_cell_min : (after (st [1102, -4294967296, 2147483648, 5, 99, 0])).map (fun t => t.base[5]?) =
    some (some (-9223372036854775808)) := by decide
/-- V-A8, under wrap as in V-A4. -/
theorem test_mul_wrap : (after (stWrap [1102, 4294967296, 2147483648, 5, 99, 0])).map (fun t => t.base[5]?) =
    some (some (-9223372036854775808)) := by decide
/-- V-M8. -/
theorem test_in_relative : (after { stIn [203, -9, 203, -9, 99] [some 55] with rb := 10 }).map
    (fun t => (t.base, t.pc, t.source)) = some ([203, 55, 203, -9, 99], 2, ⟨[], .silent⟩) := by decide
/-- V-I5: the value is consumed and lost. -/
theorem test_in_write_fault : (after (stIn [3, 100, 99] [some 5])).map (fun t => (t.base, t.pc, t.source, t.err)) =
    some ([3, 100, 99], 0, ⟨[], .silent⟩, some ⟨0, .writeMemoryOutOfBounds 100⟩) := by decide
/-- A live view answers every pull (pattern (d) of 42_io.md R166). -/
theorem test_in_live_view : (after { st [3, 0, 99] with source := ⟨[], .steady (some 7)⟩ }).map
    (fun t => (t.base[0]?, t.source)) = some (some 7, ⟨[], .steady (some 7)⟩) := by decide

/-- V-I1. -/
theorem test_out : (after (st [4, 3, 99, 42])).map (fun t => (t.sink, t.pc)) = some ([42], 2) := by decide
/-- V-M3: an unwritten extension cell. -/
theorem test_out_extension : (after (stExt [4, 10, 99])).map (fun t => (t.sink, t.ext)) = some ([0], []) := by decide
/-- V-J1, with a negative condition (R180). -/
theorem test_jt_taken : (after (st [1105, -7, 4, 99, 99])).map State.pc = some 4 := by decide
/-- V-J6. -/
theorem test_jt_not_taken : (after (st [1105, 0, -1, 99])).map State.pc = some 3 := by decide
/-- V-J3. -/
theorem test_jf_taken : (after (st [1106, 0, 4, 99, 99])).map State.pc = some 4 := by decide
/-- V-J5 for JumpIfFalse (R182). -/
theorem test_jf_bad_target : errAfter (st [1106, 0, -1, 99]) =
    some ⟨0, .memoryCellIsInvalidPointer .target (-1)⟩ := by decide
/-- V-C1. -/
theorem test_lt_signed : (after (st [1107, -1, 0, 5, 99, 7])).map (fun t => t.base[5]?) = some (some 1) := by decide
/-- V-C2. -/
theorem test_lt_equal : (after (st [1107, 3, 3, 5, 99, 7])).map (fun t => t.base[5]?) = some (some 0) := by decide
/-- V-C4. -/
theorem test_eq : (after (st [1108, 3, 3, 5, 99, 7])).map (fun t => t.base[5]?) = some (some 1) := by decide
/-- V-C5. -/
theorem test_eq_sign : (after (st [1108, 3, -3, 5, 99, 7])).map (fun t => t.base[5]?) = some (some 0) := by decide
/-- V-B3: the operand is read with the old base. -/
theorem test_arb_relative : (after (st [209, 3, 99, 7])).map (fun t => (t.rb, t.pc)) = some (7, 2) := by decide
/-- V-B5, its second step. -/
theorem test_arb_overflow : errAfter { st [109, 9223372036854775807, 109, 1, 99] with
    pc := 2, rb := 9223372036854775807 } = some ⟨2, .arithmeticOverflow 9223372036854775808⟩ := by decide
/-- V-D5. -/
theorem test_hlt : (after (st [11199])).map (fun t => (t.status, t.pc, t.haltedFlag)) = some (.halted, 0, true) := by
  decide
/-- L1-7: a Halted CORE is inert. -/
theorem test_halted_is_inert : after { st [1, 0, 0, 0, 99] with status := .halted } =
    some { st [1, 0, 0, 0, 99] with status := .halted } := by decide

/-! ### The rest of the model -/

/-- V-D12: the machine right after reset has no program. -/
theorem test_reset_faults : errAfter State.reset = some ⟨0, .readMemoryOutOfBounds 0⟩ := by decide
/-- The host's placement runs as the first instruction after reset: ADD with zero operand cells, `[0] + [0] -> [0]`. -/
theorem test_fetch_word_runs : (after (State.reset.withFetchWord 8 1)).map (fun t => (t.base, t.pc, t.status)) =
    some ([2, 0, 0, 0], 4, .running) := by decide
/-- P3's last store: a written 0 is an entry (20_memory.md R54). -/
theorem test_zero_is_an_entry : (after (stExt [1101, 0, 0, 100])).map State.ext = some [(100, 0)] := by decide
/-- V-I2: two resumes with nothing to read. -/
theorem test_resume_waits : ((st [3, 0, 3, 1, 4, 0, 4, 1, 99]).resume 2).map (fun x => (x.1, x.2.pc)) =
    some (.waitingOnInput, 0) := by decide
/-- The numbers of STATUS and CTRL (10_state.md R27, R29). -/
theorem test_status_numbers : [Status.running, .waitingOnInput, .halted, .faulted].map Status.code = [0, 1, 2, 3] ∧
    (st []).ctrl = 0 ∧ (stExt []).ctrl = 1 := by decide
/-- 30_encoding.md R98's examples, and its encodings. -/
theorem test_assembly : assembleListing [.instr (.add (.position 100) (.immediate 1) (.position 100)),
    .instr (.out (.relative (-1))), .instr (.jf (.position 101) (.immediate 0)), .instr .hlt, .data [30, 40]] =
    [1001, 100, 1, 100, 204, -1, 1006, 101, 0, 99, 30, 40] := by decide
/-- 30_encoding.md R100. -/
theorem test_image_text : [['1', ',', '-', '0', '7', ' ', '\n'], [' '], ['1', ',', ',', '2'], ['1', ','], ['-', ' ', '5'],
    ['+', '1']].map (parseImage Params.standard) = [some [1, -7], some [], none, none, none, none] := by decide

/-! ### Witnesses: encoding -/

theorem witness_EncodedInstructionDecodesToItself : Instr.wellFormed Params.standard
    (.add (.immediate 9223372036854775807) (.position (-9223372036854775808)) (.relative (-9223372036854775808))) =
      true := by decide
theorem witness_DecodedInstructionIsReadFromItsDigits :
    (∀ v ∈ [(-9223372036854775808 : Int), 7], Params.standard.IsCell v) ∧
    decode [104, -9223372036854775808, 7] = .ok (.out (.immediate (-9223372036854775808)), [7]) :=
  ⟨by decide, rfl⟩
theorem witness_EncodedWordsDecodeToTheInstruction : Instr.wellFormed Params.standard
    (.jt (.relative (-9223372036854775808)) (.immediate 9223372036854775807)) = true := by decide
theorem witness_FirstIllegalModeDigitIsReported :
    (0 ≤ (90001 : Int) ∧ Opcode.ofNumber (low2 90001) = some .add ∧ 2 < Opcode.add.kinds.length ∧
      2 < dig 90001 (2 + 2) ∧ ∀ j, j < 2 → dig 90001 (j + 2) ≤ 2 ∧
        ¬ (Opcode.add.kinds[j]? = some .output ∧ dig 90001 (j + 2) = 1)) ∧
    (0 ≤ (303 : Int) ∧ Opcode.ofNumber (low2 303) = some .inp ∧ 0 < Opcode.inp.kinds.length ∧ 2 < dig 303 (0 + 2)) := by
  decide
theorem witness_OutputParameterIsNeverImmediate_rejects :
    (0 ≤ (10001 : Int) ∧ Opcode.ofNumber (low2 10001) = some .add ∧ Opcode.add.kinds[2]? = some .output ∧
      dig 10001 (2 + 2) = 1 ∧ ∀ j, j < 2 → dig 10001 (j + 2) ≤ 2) ∧
    (Opcode.ofNumber (low2 103) = some .inp ∧ Opcode.inp.kinds[0]? = some .output ∧ dig 103 (0 + 2) = 1) := by decide
theorem witness_OutputParameterIsNeverImmediate_accepted :
    decode [20101, 1, 2, 3] = .ok (.add (.immediate 1) (.position 2) (.relative 3), []) ∧
    Instr.outputParam (.add (.immediate 1) (.position 2) (.relative 3)) = some (.relative 3) := ⟨rfl, rfl⟩
theorem witness_OutputParameterIsNeverImmediate_legal :
    0 ≤ (22201 : Int) ∧ Opcode.ofNumber (low2 22201) = some .add ∧
    ∀ j, j < Opcode.add.kinds.length → dig 22201 (j + 2) ≤ 2 ∧
      (Opcode.add.kinds[j]? = some .output → dig 22201 (j + 2) ≠ 1) := by decide
theorem witness_UpperDigitsHaveNoEffect : decodeHead 4 = .ok ⟨.out, [.position]⟩ ∧
    (1000004 : Int).toNat % 10 ^ (2 + [Mode.position].length) = (4 : Int).toNat % 10 ^ (2 + [Mode.position].length) :=
  ⟨rfl, rfl⟩

/-! ### Witnesses: memory and operands -/

theorem witness_ReadsAndWritesFollowTheRegions :
    2 < (st [1, 2, 3]).base.length ∧
    ((stExt [1, 2, 3]).base.length ≤ 3 ∧ (stExt [1, 2, 3]).extEn = true ∧ (stExt [1, 2, 3]).ext.lookup 3 = none ∧
      ((stExt [1, 2, 3]).store 3 0).ext.lookup 3 = some 0) ∧
    ((st [1, 2, 3]).base.length ≤ 3 ∧ (st [1, 2, 3]).extEn = false) := by decide
theorem witness_StoredCellIsReadBack : (stExt [1]).memWrite 1 5 = .ok ((stExt [1]).store 1 5) ∧
    (st [1]).memWrite 0 5 = .ok ((st [1]).store 0 5) := ⟨rfl, rfl⟩
theorem witness_InputOperandsResolveByMode :
    (18446744073709551615 ≤ (stExt []).params.ptrMax ∧ (18446744073709551615 : Int) = ((18446744073709551615 : Nat) : Int) ∧
      (stExt []).rb + 18446744073709551615 = ((18446744073709551615 : Nat) : Int)) ∧
    ((-1 : Int) < 0 ∧ (stExt []).rb + (-1) < 0) ∧ ((stExt []).params.ptrMax : Int) < 18446744073709551616 := by decide
theorem witness_OutputAddressesResolveByMode :
    (0 ≤ (st [7]).params.ptrMax ∧ (0 : Int) = ((0 : Nat) : Int) ∧ (st [7]).rb + 0 = ((0 : Nat) : Int)) ∧
    ((-1 : Int) < 0 ∧ (st [7]).rb + (-1) < 0) ∧ ((st [7]).params.ptrMax : Int) < 18446744073709551616 := by decide

/-! ### Witnesses: instructions -/

/-- The operands of the four instructions with an ALU result: 9 and a greatest value, into the last image cell. -/
theorem witness_AddWritesTheExactSum :
    (st [9, 0]).resolveIn (.position 0) = .ok 9 ∧
    (st [9, 0]).resolveIn (.immediate 9223372036854775798) = .ok 9223372036854775798 ∧
    (st [9, 0]).resolveOut .add (.position 1) = .ok 1 ∧ (st [9, 0]).params.IsCell (9 + 9223372036854775798) ∧
    (st [9, 0]).pc + 4 ≤ (st [9, 0]).params.ptrMax ∧ (st [9, 0]).Accessible 1 :=
  ⟨rfl, rfl, rfl, by decide, by decide, by decide⟩
theorem witness_MultiplyWritesTheExactProduct :
    (stExt [9]).resolveIn (.immediate (-4294967296)) = .ok (-4294967296) ∧
    (stExt [9]).resolveIn (.immediate 2147483648) = .ok 2147483648 ∧
    (stExt [9]).resolveOut .mul (.relative 1) = .ok 1 ∧
    (stExt [9]).params.IsCell (-4294967296 * 2147483648) ∧ (stExt [9]).pc + 4 ≤ (stExt [9]).params.ptrMax ∧
    (stExt [9]).Accessible 1 := ⟨rfl, rfl, rfl, by decide, by decide, by decide⟩
theorem witness_LessThanWritesOneOrZero :
    (st [9]).resolveIn (.immediate 9) = .ok 9 ∧ (st [9]).resolveIn (.position 0) = .ok 9 ∧
    (st [9]).resolveIn (.immediate 8) = .ok 8 ∧ (st [9]).resolveOut .lt (.position 0) = .ok 0 ∧
    (st [9]).pc + 4 ≤ (st [9]).params.ptrMax ∧ (st [9]).Accessible 0 ∧ (8 : Int) < 9 ∧ (9 : Int) ≤ 9 :=
  ⟨rfl, rfl, rfl, rfl, by decide, by decide, by decide, by decide⟩
theorem witness_EqualsWritesOneOrZero :
    (st [9]).resolveIn (.immediate (-9)) = .ok (-9) ∧ (st [9]).resolveIn (.position 0) = .ok 9 ∧
    (st [9]).resolveOut .eq (.position 0) = .ok 0 ∧ (st [9]).pc + 4 ≤ (st [9]).params.ptrMax ∧
    (st [9]).Accessible 0 ∧ (9 : Int) = 9 ∧ (-9 : Int) ≠ 9 :=
  ⟨rfl, rfl, rfl, by decide, by decide, by decide, by decide⟩
theorem witness_InputWritesThePulledValueOrWaits :
    (stIn [3, 0] [some 5]).resolveOut .inp (.position 0) = .ok 0 ∧ (stIn [3, 0] [some 5]).answer = some 5 ∧
    (stIn [3, 0] [some 5]).pc + 2 ≤ (stIn [3, 0] [some 5]).params.ptrMax ∧ (stIn [3, 0] [some 5]).Accessible 0 ∧
    (stIn [3, 0] [none, some 5]).answer = none ∧ (stIn [3, 0] [none, some 5]).source = ⟨[none, some 5], .silent⟩ ∧
    (st [3, 0]).source = ⟨[], .silent⟩ ∧ { st [3, 0] with source := ⟨[], .steady (some 5)⟩ }.answer = some 5 ∧
    { st [3, 0] with source := ⟨[], .draws 0 9⟩ }.source = ⟨[], .draws 0 9⟩ :=
  ⟨rfl, rfl, by decide, by decide, rfl, rfl, rfl, rfl, rfl⟩
theorem witness_OutputPushesItsOperand : (st [204, 1]).resolveIn (.relative 1) = .ok 1 ∧
    (st [204, 1]).pc + 2 ≤ (st [204, 1]).params.ptrMax := ⟨rfl, by decide⟩
theorem witness_JumpIfTrueJumpsOnNonZero :
    (st [0]).resolveIn (.immediate (-1)) = .ok (-1) ∧ (st [0]).resolveIn (.immediate 9223372036854775807) =
      .ok 9223372036854775807 ∧ (st [0]).resolveIn (.position 0) = .ok 0 ∧ (-1 : Int) ≠ 0 ∧
    (9223372036854775807 : Int) ≤ (st [0]).params.ptrMax ∧ (st [0]).pc + 3 ≤ (st [0]).params.ptrMax :=
  ⟨rfl, rfl, rfl, by decide, by decide, by decide⟩
theorem witness_JumpIfFalseJumpsOnZero :
    (st [0]).resolveIn (.position 0) = .ok 0 ∧ (st [0]).resolveIn (.immediate 1) = .ok 1 ∧ (1 : Int) ≠ 0 ∧
    (0 : Int) ≤ (st [0]).params.ptrMax ∧ (st [0]).pc + 3 ≤ (st [0]).params.ptrMax :=
  ⟨rfl, rfl, by decide, by decide, by decide⟩
theorem witness_AdjustRelativeBaseAddsItsOperand :
    (st []).resolveIn (.immediate (-9223372036854775808)) = .ok (-9223372036854775808) ∧
    (st []).params.IsCell ((st []).rb + -9223372036854775808) ∧ (st []).pc + 2 ≤ (st []).params.ptrMax :=
  ⟨rfl, by decide, by decide⟩

/-! ### Witnesses: errors -/

theorem witness_OutOfRangeResultFaults :
    (st []).params.overflow = .fault ∧
    (st []).resolveIn (.immediate 9223372036854775807) = .ok 9223372036854775807 ∧
    (st []).resolveIn (.immediate 2) = .ok 2 ∧ (st []).resolveOut .add (.position 50) = .ok 50 ∧
    (st []).resolveOut .mul (.position 50) = .ok 50 ∧ ¬ (st []).params.IsCell (9223372036854775807 + 2) ∧
    ¬ (st []).params.IsCell (9223372036854775807 * 2) ∧
    ¬ { st [] with rb := 1 }.params.IsCell ({ st [] with rb := 1 }.rb + 9223372036854775807) :=
  ⟨rfl, rfl, rfl, rfl, rfl, by decide, by decide, by decide⟩
theorem witness_WrapModeReducesModuloTheCellRange :
    (stWrap []).params.overflow = .wrap ∧ 1 ≤ (stWrap []).params.cellWidth := by decide
theorem witness_WrapModeCompletesWithTheReducedResult :
    (stWrap [0]).params.IsCell (-9223372036854775808) ∧
    (stWrap [0]).resolveIn (.immediate 4611686018427387904) = .ok 4611686018427387904 ∧
    (stWrap [0]).resolveIn (.immediate 2) = .ok 2 ∧ (stWrap [0]).resolveOut .mul (.position 0) = .ok 0 ∧
    (stWrap [0]).resolveOut .add (.position 0) = .ok 0 ∧
    ((2 ^ (stWrap [0]).params.cellWidth : Nat) : Int) ∣ 4611686018427387904 * 2 - -9223372036854775808 ∧
    ((2 ^ (stWrap [0]).params.cellWidth : Nat) : Int) ∣ 4611686018427387904 + 4611686018427387904 - -9223372036854775808 ∧
    ((2 ^ (stWrap [0]).params.cellWidth : Nat) : Int) ∣
      { stWrap [0] with rb := 4611686018427387904 }.rb + 4611686018427387904 - -9223372036854775808 :=
  ⟨by decide, rfl, rfl, rfl, rfl, by decide, by decide, by decide⟩
/-- The last clause: a sum that wrap reduces, met by a write that faults. -/
theorem witness_InaccessibleDestinationFaults :
    ¬ (stIn [1] [some 5]).Accessible 1 ∧ Instr.add (.immediate 1) (.immediate 1) (.position 1) ∈
      AluInstr (.immediate 1) (.immediate 1) (.position 1) ∧
    (stIn [1] [some 5]).resolveOut .add (.position 1) = .ok 1 ∧
    toCell (stIn [1] [some 5]).params (exactResult (.add (.immediate 1) (.immediate 1) (.position 1)) 1 1) = .ok 2 ∧
    (stIn [1] [some 5]).resolveOut .inp (.position 1) = .ok 1 ∧ (stIn [1] [some 5]).answer = some 5 ∧
    ¬ (stWrap [1]).Accessible 1 ∧ toCell (stWrap [1]).params (9223372036854775807 + 1) = .ok (-9223372036854775808) :=
  ⟨by decide, by decide, rfl, rfl, rfl, rfl, by decide, rfl⟩
theorem witness_OperandErrorsComeInParameterOrder :
    (st [1]).resolveIn (.position (-1)) = .error (.memoryCellIsInvalidPointer .operand (-1)) ∧
    (st [1]).resolveIn (.position 0) = .ok 1 ∧
    (st [1]).resolveIn (.position 1) = .error (.readMemoryOutOfBounds 1) ∧
    (st [1]).resolveOut .eq (.relative (-1)) = .error (.memoryCellIsInvalidPointer .output (-1)) := ⟨rfl, rfl, rfl, rfl⟩
theorem witness_OperandErrorsOfTheOtherInstructions :
    (st [1]).resolveIn (.relative 1) = .error (.readMemoryOutOfBounds 1) ∧ (st [1]).resolveIn (.immediate 1) = .ok 1 ∧
    (st [1]).resolveOut .inp (.position (-1)) = .error (.memoryCellIsInvalidPointer .output (-1)) := ⟨rfl, rfl, rfl⟩
theorem witness_TakenJumpChecksItsTarget :
    (st []).resolveIn (.immediate (-1)) = .ok (-1) ∧ (st []).resolveIn (.immediate 1) = .ok 1 ∧
    (st []).resolveIn (.immediate 0) = .ok 0 ∧ (-1 : Int) < 0 ∧ (1 : Int) ≠ 0 :=
  ⟨rfl, rfl, rfl, by decide, by decide⟩
/-- A state whose pc is `n` cells before `2^64`. -/
def nearTop (n : Nat) : State := { stExt [] with pc := 2 ^ 64 - n, source := ⟨[some 5], .silent⟩ }
theorem witness_AdvancePastTheLastPointerFaults :
    ((nearTop 4).params.ptrMax < (nearTop 4).pc + 4 ∧ (nearTop 2).params.ptrMax < (nearTop 2).pc + 2 ∧
      (nearTop 3).params.ptrMax < (nearTop 3).pc + 3) ∧
    (nearTop 4).resolveIn (.immediate 0) = .ok 0 ∧ (nearTop 4).resolveOut .add (.position 0) = .ok 0 ∧
    (nearTop 2).resolveOut .inp (.position 0) = .ok 0 ∧ (nearTop 2).answer = some 5 ∧
    (nearTop 3).resolveIn (.immediate 1) = .ok 1 ∧
    toCell (nearTop 4).params (exactResult (.mul (.immediate 0) (.immediate 0) (.position 0)) 0 0) = .ok 0 ∧
    toCell (nearTop 2).params ((nearTop 2).rb + 0) = .ok 0 ∧
    toCell ⟨64, 64, .wrap⟩ (9223372036854775807 + 1) = .ok (-9223372036854775808) :=
  ⟨by decide, rfl, rfl, rfl, rfl, rfl, rfl, rfl, rfl⟩
/-- A faulting step of an active CORE (V-D1). -/
theorem witness_EffectMismatchIsOnlyASelfCheck : (st [0]).Active ∧
    step (st [0]) = .next ((st [0]).faultEntry (.unknownOpCode 0)) ∧
    ((st [0]).faultEntry (.unknownOpCode 0)).status = .faulted := ⟨.inl rfl, rfl, rfl⟩

/-! ### Witnesses: frames -/

theorem witness_AluInstructionsFrame :
    Instr.lt (.immediate 1) (.immediate 2) (.position 0) ∈ AluInstr (.immediate 1) (.immediate 2) (.position 0) ∧
    exec (.lt (.immediate 1) (.immediate 2) (.position 0)) (st [7]) = .next (((st [7]).store 0 1).withPc 4) ∧
    (st [7]).resolveOut .lt (.position 0) = .ok 0 ∧ ∀ d, (st [7]).resolveOut .lt (.position (-1)) ≠ .ok d :=
  ⟨by decide, rfl, rfl, nofun⟩
theorem witness_InputFrame :
    exec (.inp (.position 0)) (stIn [7] [some 5]) = .next (((stIn [7] [some 5]).pull.store 0 5).withPc 2) ∧
    (stIn [7] [some 5]).resolveOut .inp (.position 0) = .ok 0 ∧
    (∀ d, (stIn [7] [some 5]).resolveOut .inp (.position (-1)) ≠ .ok d) ∧ (st [7]).answer = none :=
  ⟨rfl, rfl, nofun, rfl⟩
theorem witness_NonStoringInstructionsFrame :
    Instr.jt (.immediate 1) (.immediate 0) ∈ ([.out (.immediate 1), .jt (.immediate 1) (.immediate 0),
      .jf (.immediate 1) (.immediate 0), .arb (.immediate 1), .hlt] : List Instr) ∧
    exec (.jt (.immediate 1) (.immediate 0)) (st [7]) = .next ((st [7]).withPc 0) := ⟨by decide, rfl⟩

/-! ### Witnesses: the step -/

/-- Cells of the image from address 0 stand there. -/
theorem holds_image (image : List Int) (h : image.length ≤ 2 ^ 64) : (st image).HoldsAt 0 image := by
  intro k hk
  refine ⟨?_, ?_⟩
  · show 0 + k ≤ 2 ^ 64 - 1
    omega
  · simp [State.memRead, st, State.construct, hk]

theorem witness_StepRunsTheDecodedInstruction : (st [104, 7]).status = .running ∧
    (st [104, 7]).HoldsAt (st [104, 7]).pc [104, 7] ∧ decode [104, 7] = .ok (.out (.immediate 7), []) :=
  ⟨rfl, holds_image _ (by decide), rfl⟩
theorem witness_StepRunsTheEncodedInstruction : (st [104, 7]).status = .running ∧
    Instr.wellFormed (st [104, 7]).params (.out (.immediate 7)) = true ∧
    (st [104, 7]).HoldsAt (st [104, 7]).pc (encode (.out (.immediate 7))) :=
  ⟨rfl, by decide, holds_image _ (by decide)⟩
theorem witness_OpcodeCellErrorsAreTakenFirst : (st []).memRead (st []).pc = .error (.readMemoryOutOfBounds 0) ∧
    (st [301]).memRead (st [301]).pc = .ok 301 ∧ decodeHead 301 = .error (.unknownParameterType 301 1 3) :=
  ⟨rfl, rfl, rfl⟩
/-- An Output whose opcode cell is the last cell, and a truncated Add (V-D14). -/
theorem witness_ParameterCellErrorsComeInOrder :
    ({ stExt [] with pc := 2 ^ 64 - 1, ext := [(2 ^ 64 - 1, 104)] }.memRead (2 ^ 64 - 1) = .ok 104 ∧
      decodeHead 104 = .ok ⟨.out, [.immediate]⟩ ∧ Params.standard.ptrMax < (2 ^ 64 - 1) + 1 + 0) ∧
    ((st [1, 0, 0]).memRead (st [1, 0, 0]).pc = .ok 1 ∧
      decodeHead 1 = .ok ⟨.add, [.position, .position, .position]⟩ ∧ (st [1, 0, 0]).pc + 1 + 2 ≤ (st [1, 0, 0]).params.ptrMax ∧
      (∀ j, j < 2 → (st [1, 0, 0]).pc + 1 + j ≤ (st [1, 0, 0]).params.ptrMax ∧
        ∃ v, (st [1, 0, 0]).memRead ((st [1, 0, 0]).pc + 1 + j) = .ok v) ∧
      (st [1, 0, 0]).memRead ((st [1, 0, 0]).pc + 1 + 2) = .error (.readMemoryOutOfBounds 3)) := by
  refine ⟨⟨rfl, rfl, by decide⟩, rfl, rfl, by decide, ?_, rfl⟩
  intro j hj
  match j, hj with
  | 0, _ => exact ⟨by decide, 0, rfl⟩
  | 1, _ => exact ⟨by decide, 0, rfl⟩
theorem witness_WaitingStepRetriesFromTheFetch :
    { st [3, 0] with status := .waitingOnInput }.status = .waitingOnInput := rfl
theorem witness_InputConsumesOneValueHoweverOftenItWaits :
    (stIn [3, 0] [none, none, some 5]).Active ∧
    (stIn [3, 0] [none, none, some 5]).fetchDecode = .ok (.inp (.position 0)) ∧
    (stIn [3, 0] [none, none, some 5]).resolveOut .inp (.position 0) = .ok 0 ∧
    (stIn [3, 0] [none, none, some 5]).Accessible 0 ∧
    (stIn [3, 0] [none, none, some 5]).pc + 2 ≤ (stIn [3, 0] [none, none, some 5]).params.ptrMax ∧
    (∀ k < 2, ((stIn [3, 0] [none, none, some 5]).source.pulledTimes k).answer Params.standard = none) ∧
    ((stIn [3, 0] [none, none, some 5]).source.pulledTimes 2).answer Params.standard = some 5 :=
  ⟨.inl rfl, rfl, rfl, by decide, by decide, by decide, rfl⟩
/-- P5. -/
theorem witness_StoredHaltIsFetchedNext : (st [1101, 50, 49, 4, 0]).status = .running ∧
    (st [1101, 50, 49, 4, 0]).HoldsAt (st [1101, 50, 49, 4, 0]).pc
      (encode (.add (.immediate 50) (.immediate 49) (.position 4))) ∧
    Instr.wellFormed Params.standard (.add (.immediate 50) (.immediate 49) (.position 4)) = true ∧
    (st [1101, 50, 49, 4, 0]).resolveIn (.immediate 50) = .ok 50 ∧
    (st [1101, 50, 49, 4, 0]).resolveIn (.immediate 49) = .ok 49 ∧
    (st [1101, 50, 49, 4, 0]).resolveOut .add (.position 4) = .ok 4 ∧ (st [1101, 50, 49, 4, 0]).Accessible 4 ∧
    Params.standard.IsCell (50 + 49) ∧ low2 99 = 99 := by
  refine ⟨rfl, ?_, by decide, rfl, rfl, rfl, by decide, by decide, by decide⟩
  intro k hk
  have := holds_image [1101, 50, 49, 4, 0] (by decide) k (Nat.lt_succ_of_lt hk)
  match k, hk with
  | 0, _ => exact this
  | 1, _ => exact this
  | 2, _ => exact this
  | 3, _ => exact this

/-! ### Witnesses: whole-machine rules and host commands -/

/-- A state that meets the invariant, with an instruction to run. -/
theorem inv_st : (st [104, 7]).Inv where
  paramsLegal := by decide
  baseCells := by decide
  extSorted := by decide
  extAddrs := nofun
  extCells := nofun
  extOnlyEnabled := fun _ => rfl
  pcPointer := Nat.zero_le _
  rbCell := by decide
  errIffFaulted := by decide
  errPc := nofun
  sourceCells := ⟨nofun, nofun⟩
  sinkCells := nofun

/-- Its step: the Output pushes 7. -/
theorem step_st : step (st [104, 7]) = .next { st [104, 7] with pc := 2, sink := [7] } := rfl

theorem witness_StepKeepsTheInvariant : (st [104, 7]).Inv ∧
    step (st [104, 7]) = .next { st [104, 7] with pc := 2, sink := [7] } := ⟨inv_st, step_st⟩
theorem witness_ConstructionMeetsTheInvariant : Params.standard.Legal ∧
    InputSource.Cells Params.standard ⟨[some 9223372036854775807, none], .steady (some 1)⟩ ∧
    State.constructFromText Params.standard ['9', '9'] ⟨[some 9223372036854775807, none], .steady (some 1)⟩ =
      some (State.construct Params.standard [99] ⟨[some 9223372036854775807, none], .steady (some 1)⟩) := by
  refine ⟨by decide, ⟨?_, ?_⟩, by decide⟩
  · intro v hv
    have : v = 9223372036854775807 := by simpa using hv
    subst this
    decide
  · intro v hv
    cases hv
    decide
theorem witness_FaultingStepCommitsNothing : (stIn [3, 100] [some 5]).Active ∧
    step (stIn [3, 100] [some 5]) = .next ((stIn [3, 100] [some 5]).pull.faultEntry (.writeMemoryOutOfBounds 100)) ∧
    ((stIn [3, 100] [some 5]).pull.faultEntry (.writeMemoryOutOfBounds 100)).status = .faulted := ⟨.inl rfl, rfl, rfl⟩
theorem witness_StepKeepsConfigurationAndBase : step (st [109, -5]) = .next { st [109, -5] with pc := 2, rb := -5 } ∧
    { st [109, -5] with pc := 2, rb := -5 }.rb ≠ (st [109, -5]).rb := ⟨rfl, by decide⟩
theorem witness_MemoryChangesOnlyAtTheOutputAddress :
    step (st [1101, 1, 1, 0]) = .next (((st [1101, 1, 1, 0]).store 0 2).withPc 4) ∧
    (((st [1101, 1, 1, 0]).store 0 2).withPc 4).memRead 0 ≠ (st [1101, 1, 1, 0]).memRead 0 := by
  refine ⟨rfl, ?_⟩
  show (Except.ok 2 : Except Err Int) ≠ .ok 1101
  simp
theorem witness_OnlyOutputPushesAndOnlyInputPulls :
    (step (st [104, 7]) = .next { st [104, 7] with pc := 2, sink := [7] } ∧
      { st [104, 7] with pc := 2, sink := [7] }.sink ≠ (st [104, 7]).sink) ∧
    (step (stIn [3, 0] [none]) = .next { st [3, 0] with status := .waitingOnInput } ∧
      { st [3, 0] with status := .waitingOnInput }.source ≠ (stIn [3, 0] [none]).source) :=
  ⟨⟨rfl, by decide⟩, rfl, by decide⟩
theorem witness_OnlyHaltEntersHaltedAndTerminalStatesStay :
    step (st [99]) = .next { st [99] with status := .halted } ∧ (st [99]).status ≠ .halted ∧
    { st [99] with status := .halted }.status = .halted ∧
    step ((st [0]).faultEntry (.unknownOpCode 0)) = .next ((st [0]).faultEntry (.unknownOpCode 0)) :=
  ⟨rfl, by decide, rfl, rfl⟩
theorem witness_ResumeOnHaltedChangesNothing : { st [99] with status := .halted }.status = .halted := rfl
theorem witness_ResumeReturnsWhatStatusSays : (st [104, 7]).Inv ∧ (st [104, 7]).resume 2 =
    some (.error (some ⟨2, .readMemoryOutOfBounds 2⟩),
      { st [104, 7] with pc := 2, sink := [7] }.faultEntry (.readMemoryOutOfBounds 2)) ∧ (st [104, 7]).Active ∧
    { st [3, 0] with status := .waitingOnInput }.Active := ⟨inv_st, rfl, .inl rfl, .inr rfl⟩
theorem witness_MoreFuelNeverChangesAnEndedRun :
    (st [99]).resume 1 = some (.halt, { st [99] with status := .halted }) := rfl
theorem witness_ResumeOnFaultedReturnsTheSameError :
    ((st [0]).faultEntry (.unknownOpCode 0)).status = .faulted := rfl
theorem witness_RunUntilHaltIsOneResume :
    (st [3, 0]).resume 1 = some (.waitingOnInput, { st [3, 0] with status := .waitingOnInput }) ∧
    (st [99]).resume 1 = some (.halt, { st [99] with status := .halted }) ∧
    (st [0]).resume 1 = some (.error (some ⟨0, .unknownOpCode 0⟩), (st [0]).faultEntry (.unknownOpCode 0)) :=
  ⟨rfl, rfl, rfl⟩
theorem witness_EnablingTheExtensionTurnsFaultsIntoZeros :
    1 < (st [104, 7]).base.length ∧ (st [104, 7]).Inv ∧ (st [104, 7]).extEn = false ∧ (st [104, 7]).base.length ≤ 2 :=
  ⟨by decide, inv_st, rfl, by decide⟩
theorem witness_HostCommandsLeaveTheCoreAlone :
    (st [104, 7]).hostCommand 0 (.readMemory 1) = some (.cell 7, st [104, 7]) ∧
    (st [104, 7]).hostCommand 0 (.readMemory 2) = some (.readError (.readMemoryOutOfBounds 2), st [104, 7]) ∧
    (stExt [99]).hostCommand 1 .resume = some (.resumed .halt, { stExt [99] with status := .halted }) ∧
    (stExt [99]).resume 1 = some (.halt, { stExt [99] with status := .halted }) ∧
    (stExt [99]).runUntilHalt 1 = some (.ok, { stExt [99] with status := .halted }) :=
  ⟨rfl, rfl, rfl, rfl, rfl⟩
theorem witness_ImageTextIsReadItemByItem :
    (∀ item ∈ [['1'], [' ', '2']], ',' ∉ item) ∧ 2 ≤ [['1'], [' ', '2']].length ∧
    ((∀ item ∈ [['7', ' ']], ',' ∉ item) ∧ (['7', ' '] : List Char).all isImageSpace = false) ∧
    ([' ', '\n'] : List Char).all isImageSpace = true := by decide
/-- One text for each clause, at the ends of the digits and of a cell range. -/
theorem witness_IntegersAreOptionalMinusAndDigits :
    (∀ c ∈ ['9', '0'], '0' ≤ c ∧ c ≤ '9') ∧ parseInteger ['-', '9', '0'] = some (-90) ∧
    (parseInteger ['+', '1']).isSome = false ∧ parseItem ⟨8, 64, .fault⟩ ['\t', '1', '2', '7', '\n'] = some 127 ∧
    parseItem ⟨8, 64, .fault⟩ ['1', '2', '8'] = none ∧ parseItem ⟨8, 64, .fault⟩ ['-', '1', '2', '8'] = some (-128) :=
  ⟨by simp, rfl, rfl, rfl, rfl, rfl⟩

end Sys2Proof.Tests
end

section
/-! PROOFS. MemRead and MemWrite region by region (20_memory.md R53). -/

namespace Sys2Proof.Machine

/-- R54, the base region: one cell of BASE is replaced. -/
theorem State.store_base_region {s : State} {a : Nat} (v : Int) (h : a < s.imageLength) :
    (s.store a v).base = s.base.set a v ∧ (s.store a v).ext = s.ext := by
  simp [h]

/-- R54, the extension: one entry of EXT is created or replaced. -/
theorem State.store_ext_region {s : State} {a : Nat} (v : Int) (h : s.imageLength ≤ a) :
    (s.store a v).base = s.base ∧ (s.store a v).ext = s.ext.insert a v := by
  simp [List.set_eq_of_length_le h, Nat.not_lt.2 h]

/-- With the extension disabled nothing from N up can be accessed (R52). -/
theorem State.not_accessible {s : State} {a : Nat} (h : s.imageLength ≤ a) (hen : s.extEn = false) :
    ¬ s.Accessible a := by
  simp [State.Accessible, Nat.not_lt.2 h, hen]

/-- Settles O9, one region after the other. -/
theorem readsAndWritesFollowTheRegions : Obligations.ReadsAndWritesFollowTheRegions := by
  intro s a v
  refine ⟨fun h => ?base, fun h hen => ?ext, fun h hen => ?outOfBounds⟩
  case base =>
    exact ⟨State.memRead_base h, s.store a v, State.memWrite_accessible v (.inl h), State.store_base_region v h⟩
  case ext =>
    obtain ⟨hbase, hext⟩ := State.store_ext_region v h
    have hread := State.memRead_ext h hen
    refine ⟨fun w hw => ?_, fun hnone => ?_, s.store a v, State.memWrite_accessible v (.inr hen), hbase, ?_, ?_⟩
    · rw [hread, hw, Option.getD_some]
    · rw [hread, hnone, Option.getD_none, unlistedCell]
    · rw [hext, Memory.lookup_insert_self, Option.getD_some]
    · intro b hb
      rw [hext, Memory.lookup_insert_other _ v hb]
  case outOfBounds =>
    exact ⟨State.memRead_outOfBounds h hen, State.memWrite_outOfBounds v (State.not_accessible h hen)⟩

end Sys2Proof.Machine
end

section
/-! PROOFS. Phase 2 of the decoder, digit by digit (30_encoding.md R86, R89, R90). -/

namespace Sys2Proof

/-! ### One parameter -/

/-- The mode digits a parameter of a kind takes: 0 to 2 (R89), and not 1 on an output parameter (R90). -/
def ParamKind.Admits (kd : ParamKind) (d : Nat) : Prop := d ≤ 2 ∧ (kd = .output → d ≠ 1)

theorem Mode.ofDigit_le_two {d : Nat} (h : d ≤ 2) : ∃ m, Mode.ofDigit d = some m :=
  match d, h with
  | 0, _ => ⟨.position, rfl⟩
  | 1, _ => ⟨.immediate, rfl⟩
  | 2, _ => ⟨.relative, rfl⟩

theorem Mode.ofDigit_above_two {d : Nat} (h : 2 < d) : Mode.ofDigit d = none :=
  Option.eq_none_iff_forall_ne_some.2 fun m hm => by
    have := m.digit_le_two
    rw [Mode.digit_of_ofDigit hm] at this
    omega

/-- R89: the digit selects no mode. -/
theorem checkModes_cons_above_two {c : Int} {i : Nat} (kd : ParamKind) (ks : List ParamKind)
    (h : 2 < dig c (i + 1)) :
    checkModes c i (kd :: ks) = .error (.unknownParameterType c i (dig c (i + 1))) := by
  simp [checkModes, Mode.ofDigit_above_two h]

/-- R90: the digit selects Immediate on an output parameter. -/
theorem checkModes_cons_output_one {c : Int} {i : Nat} (ks : List ParamKind) (h : dig c (i + 1) = 1) :
    checkModes c i (.output :: ks) = .error (.outputParameterInImmediateMode c i) := by
  simp [checkModes, h, Mode.ofDigit]

/-- An admitted digit adds its mode, and the answer is that for the parameters after it. -/
theorem checkModes_cons_admitted {c : Int} {i : Nat} {kd : ParamKind} (ks : List ParamKind)
    (h : kd.Admits (dig c (i + 1))) :
    ∃ m, checkModes c i (kd :: ks) = (checkModes c (i + 1) ks).map (m :: ·) := by
  obtain ⟨hle, hout⟩ := h
  obtain ⟨m, hm⟩ := Mode.ofDigit_le_two hle
  have hlegal : ¬ (kd = .output ∧ m = .immediate) := by
    rintro ⟨hkd, rfl⟩
    exact hout hkd (Mode.digit_of_ofDigit hm).symm
  refine ⟨m, ?_⟩
  simp only [checkModes, hm, if_neg hlegal]
  cases checkModes c (i + 1) ks <;> rfl

/-! ### A list of parameters -/

/-- The digits of the first `n` parameters of a list whose parameter 0 has the index `i` are admitted. -/
def DigitsAdmitted (c : Int) (i : Nat) (ks : List ParamKind) (n : Nat) : Prop :=
  ∀ j, j < n → ∀ kd, ks[j]? = some kd → kd.Admits (dig c (j + i + 1))

theorem DigitsAdmitted.head {c : Int} {i n : Nat} {kd : ParamKind} {ks : List ParamKind}
    (h : DigitsAdmitted c i (kd :: ks) (n + 1)) : kd.Admits (dig c (i + 1)) := by
  simpa using h 0 n.succ_pos kd rfl

theorem DigitsAdmitted.tail {c : Int} {i n : Nat} {kd : ParamKind} {ks : List ParamKind}
    (h : DigitsAdmitted c i (kd :: ks) (n + 1)) : DigitsAdmitted c (i + 1) ks n := by
  intro j hj kd' hkd'
  have := h (j + 1) (Nat.succ_lt_succ hj) kd' (by simpa using hkd')
  rwa [show j + 1 + i + 1 = j + (i + 1) + 1 by omega] at this

/-- R86: digits are checked in parameter order, so an error behind admitted digits is the answer. -/
theorem checkModes_error_of_drop {c : Int} {e : Err} {n i : Nat} {ks : List ParamKind}
    (hpre : DigitsAdmitted c i ks n) (h : checkModes c (n + i) (ks.drop n) = .error e) :
    checkModes c i ks = .error e := by
  induction n generalizing i ks with
  | zero => simpa using h
  | succ n ih =>
    cases ks with
    | nil => cases h
    | cons kd ks =>
      obtain ⟨m, hm⟩ := checkModes_cons_admitted ks hpre.head
      have hrest : checkModes c (i + 1) ks = .error e :=
        ih hpre.tail (by rwa [show n + (i + 1) = n + 1 + i by omega])
      rw [hm, hrest]
      rfl

/-- Where every digit is admitted, phase 2 accepts. -/
theorem checkModes_accepts {c : Int} {i : Nat} {ks : List ParamKind} (h : DigitsAdmitted c i ks ks.length) :
    ∃ ms, checkModes c i ks = .ok ms := by
  induction ks generalizing i with
  | nil => exact ⟨[], rfl⟩
  | cons kd ks ih =>
    obtain ⟨m, hm⟩ := checkModes_cons_admitted ks h.head
    obtain ⟨ms, hms⟩ := ih h.tail
    exact ⟨m :: ms, by rw [hm, hms]; rfl⟩

/-! ### The opcode cell -/

/-- Phase 1 of R86 passed: the answer is that of phase 2. -/
theorem decodeHead_of_opcode {c : Int} {o : Opcode} (hc : 0 ≤ c) (ho : Opcode.ofNumber (low2 c) = some o) :
    decodeHead c = (checkModes c 1 o.kinds).map (Head.mk o) := by
  simp only [decodeHead, if_neg (Int.not_lt.2 hc), ho]
  cases checkModes c 1 o.kinds <;> rfl

/-- R86: the error of the first parameter whose digit is not admitted is the decoder's answer. -/
theorem decodeHead_error_at {c : Int} {o : Opcode} {k : Nat} {e : Err} (hc : 0 ≤ c)
    (ho : Opcode.ofNumber (low2 c) = some o) (hpre : DigitsAdmitted c 1 o.kinds k)
    (h : checkModes c (k + 1) (o.kinds.drop k) = .error e) : decodeHead c = .error e := by
  rw [decodeHead_of_opcode hc ho, checkModes_error_of_drop hpre h]
  rfl

/-- R82: an output parameter is the last one of its opcode. -/
theorem Opcode.length_of_kinds_output {o : Opcode} {k : Nat} (h : o.kinds[k]? = some .output) :
    o.kinds.length = k + 1 := by
  match k with
  | 0 | 1 | 2 => revert h; cases o <;> decide
  | k + 3 => cases o <;> simp [Opcode.kinds] at h

/-! ### The whole instruction -/

/-- Everything `decode` can do when it accepts. -/
theorem decode_ok {cs rest : List Int} {i : Instr} (h : decode cs = .ok (i, rest)) :
    ∃ c, decodeHead c = .ok ⟨i.opcode, i.operands.map Param.mode⟩ ∧
      cs = c :: (i.operands.map Param.raw ++ rest) := by
  cases cs with
  | nil => cases h
  | cons c cs =>
    simp only [decode] at h
    split at h
    · cases h
    next hd hhd =>
      split at h
      · cases h
      next ps rest' hps =>
        split at h
        · cases h
        next i' hi =>
          cases h
          obtain ⟨hmodes, hraws⟩ := takeParams_some hps
          obtain ⟨hop, hops⟩ := assembleInstr_ok hi
          exact ⟨c, by rw [hhd, hop, hops, hmodes], by rw [hraws, hops]⟩

/-- The output parameter of an instruction stands where its opcode has one. -/
theorem Instr.operands_of_outputParam {i : Instr} {q : Param} (h : i.outputParam = some q) :
    ∃ k : Nat, i.operands[k]? = some q ∧ i.opcode.kinds[k]? = some .output := by
  cases i with
  | add | mul | lt | eq => exact ⟨2, h, rfl⟩
  | inp => exact ⟨0, h, rfl⟩
  | out | jt | jf | arb | hlt => cases h

/-- R90: the decoder never makes an Immediate output parameter. -/
theorem decode_output_not_immediate {cs rest : List Int} {i : Instr} {q : Param}
    (h : decode cs = .ok (i, rest)) (hq : i.outputParam = some q) : q.mode ≠ .immediate := by
  obtain ⟨c, hhead, -⟩ := decode_ok h
  obtain ⟨-, -, hmodes⟩ := decodeHead_ok hhead
  obtain ⟨k, hqk, hout⟩ := Instr.operands_of_outputParam hq
  obtain ⟨hk, rfl⟩ := List.getElem?_eq_some_iff.1 hqk
  obtain ⟨hk', hkind⟩ := List.getElem?_eq_some_iff.1 hout
  have hlegal := ((checkModes_ok hmodes).2 k (by simpa using hk) hk').2
  simpa [hkind] using hlegal

/-- Settles O5: the digit at `k` selects no mode, and everything before it is admitted. -/
theorem firstIllegalModeDigitIsReported : Obligations.FirstIllegalModeDigitIsReported := by
  intro c o k hc ho hk hdigit hbefore
  refine decodeHead_error_at (k := k) hc ho (fun j hj kd hkd => ?_) ?_
  · obtain ⟨hle, hout⟩ := hbefore j hj
    exact ⟨hle, fun hkd' hone => hout ⟨hkd' ▸ hkd, hone⟩⟩
  · rw [List.drop_eq_getElem_cons hk]
    exact checkModes_cons_above_two _ _ hdigit

/-- Settles O6: one lemma of this section for each sentence of R90. The parameters before an output parameter
are input parameters, so their digits 0 to 2 are admitted. -/
theorem outputParameterIsNeverImmediate : Obligations.OutputParameterIsNeverImmediate := by
  refine ⟨?rejected, fun _ _ _ _ => decode_output_not_immediate, ?accepted⟩
  case rejected =>
    intro c o k hc ho hkind hdigit hbefore
    refine decodeHead_error_at (k := k) hc ho (fun j hj kd hkd => ⟨hbefore j hj, ?_⟩) ?_
    · rintro rfl
      have hj' := Opcode.length_of_kinds_output hkd
      have hk' := Opcode.length_of_kinds_output hkind
      omega
    · obtain ⟨hk, hout⟩ := List.getElem?_eq_some_iff.1 hkind
      rw [List.drop_eq_getElem_cons hk, hout]
      exact checkModes_cons_output_one _ hdigit
  case accepted =>
    intro c o hc ho hdigits
    have hadm : DigitsAdmitted c 1 o.kinds o.kinds.length := fun j hj kd hkd =>
      ⟨(hdigits j hj).1, fun hkd' => (hdigits j hj).2 (hkd' ▸ hkd)⟩
    obtain ⟨ms, hms⟩ := checkModes_accepts hadm
    exact ⟨ms, by rw [decodeHead_of_opcode hc ho, hms]; rfl⟩

end Sys2Proof
end

section
/-! PROOFS. `resume()` on a Halted CORE (40_execution.md R127). -/

namespace Sys2Proof.Machine

/-- R125: a cycle that returns something else than `Continue` ends `resume()` with that result, whatever fuel is
left. -/
theorem State.resume_of_cycleResult {s t : State} {r : ResumeResult} (hstep : step s = .next t)
    (hresult : t.cycleResult = some r) (n : Nat) : s.resume (n + 1) = some (r, t) := by
  simp [State.resume, hstep, hresult]

theorem State.cycleResult_halted {s : State} (h : s.status = .halted) : s.cycleResult = some .halt := by
  simp [State.cycleResult, h]

/-- Settles O52: the cycle of a Halted CORE leaves it as it is, and so returns Halt. -/
theorem resumeOnHaltedChangesNothing : Obligations.ResumeOnHaltedChangesNothing :=
  fun _ n h => State.resume_of_cycleResult (step_halted h) (State.cycleResult_halted h) n

end Sys2Proof.Machine
end

section
/-! PROOFS. Decoding and encoding are inverse (30_encoding.md sections 1 to 3, 8). -/

namespace Sys2Proof

/-! ### The opcode cell, both ways -/

/-- Phase 2 accepts where the digits are those of legal modes; the other direction of `checkModes_ok`. -/
theorem checkModes_of_digits {c : Int} {ks : List ParamKind} {ms : List Mode} {i : Nat} (hl : ms.length = ks.length)
    (h : ∀ k (hk : k < ms.length) (hk' : k < ks.length),
      Mode.ofDigit (dig c (i + k + 1)) = some ms[k] ∧ ¬ (ks[k] = .output ∧ ms[k] = .immediate)) :
    checkModes c i ks = .ok ms := by
  induction ks generalizing i ms with
  | nil => rw [List.eq_nil_of_length_eq_zero hl]; rfl
  | cons kd ks ih =>
    cases ms with
    | nil => cases hl
    | cons m ms =>
      obtain ⟨hm, hlegal⟩ := h 0 (Nat.succ_pos _) (Nat.succ_pos _)
      have hrest : checkModes c (i + 1) ks = .ok ms := ih (Nat.succ.inj hl) fun k hk hk' => by
        have := h (k + 1) (Nat.succ_lt_succ hk) (Nat.succ_lt_succ hk')
        rwa [← Nat.add_assoc, Nat.add_right_comm i k 1] at this
      simp only [List.getElem_cons_zero, Nat.add_zero] at hm hlegal
      simp only [checkModes, hm, if_neg hlegal, hrest]

/-- Phase 2 reads no digit but those of the parameters. -/
theorem checkModes_congr {c c' : Int} {ks : List ParamKind} {ms : List Mode} {i : Nat}
    (hdig : ∀ k < ks.length, dig c' (i + k + 1) = dig c (i + k + 1)) (h : checkModes c i ks = .ok ms) :
    checkModes c' i ks = .ok ms := by
  obtain ⟨hl, hall⟩ := checkModes_ok h
  exact checkModes_of_digits hl fun k hk hk' => by rw [hdig k hk']; exact hall k hk hk'

/-- An instruction whose opcode cell and raw cells stand at the head of a list is decoded; the other direction of
`decode_ok`. -/
theorem decode_of_head {c : Int} {i : Instr} (rest : List Int)
    (h : decodeHead c = .ok ⟨i.opcode, i.operands.map Param.mode⟩) :
    decode (c :: (i.operands.map Param.raw ++ rest)) = .ok (i, rest) := by
  simp [decode, h, takeParams_raw]

/-! ### The digits of an encoded opcode cell -/

theorem Opcode.number_lt (o : Opcode) : o.number < 100 := by
  cases o <;> decide

theorem digit_modeDigits {qs : List Param} {k : Nat} (hk : k < qs.length) :
    modeDigits qs / 10 ^ k % 10 = qs[k].mode.digit := by
  induction qs generalizing k with
  | nil => cases hk
  | cons q qs ih =>
    have hq := q.mode.digit_le_two
    cases k with
    | zero =>
      simp only [modeDigits, List.getElem_cons_zero]
      omega
    | succ k =>
      have htail : modeDigits (q :: qs) / 10 = modeDigits qs := by
        simp only [modeDigits]
        omega
      rw [Nat.pow_succ', ← Nat.div_div_eq_div_mul, htail, List.getElem_cons_succ]
      exact ih _

/-- The low two digits of an encoded opcode cell are the opcode number (R97). -/
theorem Instr.low2_opcodeCell (i : Instr) : low2 (i.opcodeCell : Int) = i.opcode.number := by
  have := i.opcode.number_lt
  rw [low2_natCast, Instr.opcodeCell]
  omega

/-- The digits above them are the modes (R97). -/
theorem Instr.dig_opcodeCell (i : Instr) {k : Nat} (hk : k < i.operands.length) :
    dig (i.opcodeCell : Int) (k + 2) = i.operands[k].mode.digit := by
  have hdiv : i.opcodeCell / 10 ^ 2 = modeDigits i.operands := by
    have := i.opcode.number_lt
    rw [Instr.opcodeCell]
    omega
  rw [dig_natCast, Nat.add_comm, Nat.pow_add, ← Nat.div_div_eq_div_mul, hdiv]
  exact digit_modeDigits hk

/-! ### Well-formed instructions -/

/-- Which instructions are well-formed, read off the operand list (R85, R90). -/
theorem Instr.wellFormed_iff {p : Params} {i : Instr} :
    i.wellFormed p = true ↔
      (∀ q ∈ i.operands, p.IsCell q.raw) ∧ ∀ q, i.outputParam = some q → q.mode ≠ .immediate := by
  cases i <;> simp [Instr.wellFormed, Instr.operands, Instr.outputParam, and_assoc]

/-- The operand where the opcode has an output parameter is that parameter (R82). -/
theorem Instr.outputParam_of_kinds {i : Instr} {k : Nat} (hk : k < i.operands.length)
    (h : i.opcode.kinds[k]? = some .output) : i.outputParam = some i.operands[k] := by
  have hlen := Opcode.length_of_kinds_output h
  cases i with
  | add | mul | lt | eq => obtain rfl : k = 2 := Nat.succ.inj hlen.symm; rfl
  | inp => obtain rfl : k = 0 := Nat.succ.inj hlen.symm; rfl
  | out | arb => obtain rfl : k = 0 := Nat.succ.inj hlen.symm; cases h
  | jt | jf => obtain rfl : k = 1 := Nat.succ.inj hlen.symm; cases h
  | hlt => cases h

/-- Phases 1 and 2 of R86 on the opcode cell of a well-formed instruction. -/
theorem Instr.decodeHead_opcodeCell {p : Params} {i : Instr} (h : i.wellFormed p = true) :
    decodeHead (i.opcodeCell : Int) = .ok ⟨i.opcode, i.operands.map Param.mode⟩ := by
  have hop : Opcode.ofNumber (low2 (i.opcodeCell : Int)) = some i.opcode := by
    rw [i.low2_opcodeCell, Opcode.ofNumber_number]
  have hmodes : checkModes (i.opcodeCell : Int) 1 i.opcode.kinds = .ok (i.operands.map Param.mode) := by
    refine checkModes_of_digits (by simp [i.operands_length]) fun k hk hk' => ?_
    have hk₀ : k < i.operands.length := by simpa using hk
    rw [List.getElem_map]
    refine ⟨?_, fun ⟨hkind, himm⟩ => ?_⟩
    · rw [show 1 + k + 1 = k + 2 by omega, i.dig_opcodeCell hk₀, Mode.ofDigit_digit]
    · have hout := Instr.outputParam_of_kinds hk₀ (by rw [List.getElem?_eq_getElem hk', hkind])
      exact (Instr.wellFormed_iff.1 h).2 _ hout himm
  rw [decodeHead_of_opcode (Int.natCast_nonneg _) hop, hmodes]
  rfl

/-- Settles O1. -/
theorem encodedInstructionDecodesToItself : Obligations.EncodedInstructionDecodesToItself :=
  fun _ _ rest h => decode_of_head rest (Instr.decodeHead_opcodeCell h)

/-- Settles O2: the digits are those phase 2 has checked, the cells those phase 3 has taken. -/
theorem decodedInstructionIsReadFromItsDigits : Obligations.DecodedInstructionIsReadFromItsDigits := by
  intro p c cs rest i hcells h
  obtain ⟨c', hhead, hcs⟩ := decode_ok h
  obtain ⟨rfl, rfl⟩ := List.cons.inj hcs
  obtain ⟨hc, hop, hmodes⟩ := decodeHead_ok hhead
  refine ⟨Instr.wellFormed_iff.2 ⟨fun q hq => ?_, fun q => decode_output_not_immediate h⟩, hc,
    (Opcode.number_of_ofNumber hop).symm, rfl, fun k hk => ?_⟩
  · exact hcells _ (List.mem_append_left _ (List.mem_map_of_mem hq))
  · have hdig := ((checkModes_ok hmodes).2 k (by simpa using hk) (i.operands_length ▸ hk)).1
    rw [show 1 + k + 1 = k + 2 by omega, List.getElem_map] at hdig
    exact (Mode.digit_of_ofDigit hdig).symm

/-! ### Rejected and ignored digits -/

theorem Opcode.ofNumber_eq_none_iff {n : Nat} :
    Opcode.ofNumber n = none ↔ n ∉ [1, 2, 3, 4, 5, 6, 7, 8, 9, 99] := by
  simp [Opcode.ofNumber, Opcode.table, Opcode.number]
  omega

/-- What phase 2 can raise (R89, R90). -/
theorem checkModes_error {c : Int} {i : Nat} {ks : List ParamKind} {e : Err} (h : checkModes c i ks = .error e) :
    ∃ j, (∃ d, e = .unknownParameterType c j d) ∨ e = .outputParameterInImmediateMode c j := by
  induction ks generalizing i with
  | nil => cases h
  | cons kd ks ih =>
    simp only [checkModes] at h
    split at h
    · exact ⟨i, .inl ⟨_, (Except.error.inj h).symm⟩⟩
    · split at h
      · exact ⟨i, .inr (Except.error.inj h).symm⟩
      · split at h
        next e' he' => exact ih (he'.trans (congrArg _ (Except.error.inj h)))
        next => cases h

/-- What the opcode cell can raise (R87 to R90). -/
theorem decodeHead_error {c : Int} {e : Err} (h : decodeHead c = .error e) :
    (e = .unknownOpCode c ∧ (c < 0 ∨ Opcode.ofNumber (low2 c) = none)) ∨
    ∃ j, (∃ d, e = .unknownParameterType c j d) ∨ e = .outputParameterInImmediateMode c j := by
  unfold decodeHead at h
  split at h
  next hc => exact .inl ⟨(Except.error.inj h).symm, .inl hc⟩
  · split at h
    next ho => exact .inl ⟨(Except.error.inj h).symm, .inr ho⟩
    next o ho =>
      split at h
      next e' he' => exact .inr (checkModes_error (he'.trans (congrArg _ (Except.error.inj h))))
      next => cases h

/-- Settles O4. -/
theorem unknownOpCodeExactlyOutsideTheMap : Obligations.UnknownOpCodeExactlyOutsideTheMap := by
  intro c
  rw [← Opcode.ofNumber_eq_none_iff]
  refine ⟨fun h => ?_, ?_⟩
  · rcases decodeHead_error h with ⟨-, hc⟩ | ⟨j, ⟨d, he⟩ | he⟩
    · exact hc
    · cases he
    · cases he
  · rintro (hc | ho)
    · simp [decodeHead, hc]
    · simp [decodeHead, ho]

/-- A digit below `n` is kept by reduction modulo `10 ^ n`. -/
theorem dig_eq_of_mod_eq {c c' : Int} {n k : Nat} (h : c'.toNat % 10 ^ n = c.toNat % 10 ^ n) (hk : k < n) :
    dig c' k = dig c k := by
  have key : ∀ m : Nat, m / 10 ^ k % 10 = m % 10 ^ n / 10 ^ k % 10 := by
    intro m
    obtain ⟨j, rfl⟩ := Nat.exists_eq_add_of_lt hk
    rw [Nat.add_assoc, Nat.pow_add, Nat.mod_mul_right_div_self, Nat.mod_mod_of_dvd _ ⟨10 ^ j, Nat.pow_succ'⟩]
  rw [dig, key, h, ← key, dig]

/-- Settles O7. -/
theorem upperDigitsHaveNoEffect : Obligations.UpperDigitsHaveNoEffect := by
  intro c c' h hc' hd hmod
  obtain ⟨-, hop, hmodes⟩ := decodeHead_ok hd
  have hlen := decodeHead_modes_length hd
  have hlow : low2 c' = low2 c := by
    have hdvd : 100 ∣ 10 ^ (2 + h.modes.length) := ⟨10 ^ h.modes.length, Nat.pow_add 10 2 _⟩
    rw [low2, ← Nat.mod_mod_of_dvd _ hdvd, hmod, Nat.mod_mod_of_dvd _ hdvd, low2]
  have hmodes' : checkModes c' 1 h.opcode.kinds = .ok h.modes :=
    checkModes_congr (fun k hk => dig_eq_of_mod_eq hmod (by omega)) hmodes
  rw [decodeHead_of_opcode hc' (hlow ▸ hop), hmodes']
  rfl

/-- Settles O8, word by word. -/
theorem writtenOutWordsDecode : Obligations.WrittenOutWordsDecode :=
  ⟨rfl, rfl, rfl, rfl, rfl, rfl, rfl, rfl, rfl, rfl⟩

/-! ### The words of an instruction -/

/-- Only the low 64 bits of a word number reach its cell. -/
theorem cellOfWord_ofInt_add (c : Int) (w : Nat) (h : Params.standard.IsCell c) :
    cellOfWord ((BitVec.ofInt 64 c).toNat + 2 ^ 64 * w) = c := by
  have hword : BitVec.ofNat 64 ((BitVec.ofInt 64 c).toNat + 2 ^ 64 * w) = BitVec.ofInt 64 c := by
    apply BitVec.eq_of_toNat_eq
    rw [BitVec.toNat_ofNat, Nat.add_mul_mod_self_left, Nat.mod_eq_of_lt (BitVec.isLt _)]
  have hmin : -9223372036854775808 ≤ c := h.1
  have hmax : c ≤ 9223372036854775807 := h.2
  rw [cellOfWord, hword, BitVec.toInt_ofInt_eq_self (by decide) hmin (by omega)]

/-- The words of cells, cut apart again, are the cells, and 0 from there on. -/
theorem cellsOfWords_wordsOfCells (cs : List Int) (n : Nat) (h : ∀ c ∈ cs, Params.standard.IsCell c) :
    cellsOfWords (cs.length + n) (wordsOfCells cs) = cs ++ List.replicate n 0 := by
  induction cs with
  | nil =>
    rw [List.length_nil, Nat.zero_add, List.nil_append]
    induction n with
    | zero => rfl
    | succ n ih => exact congrArg _ ih
  | cons c cs ih =>
    have hdiv : wordsOfCells (c :: cs) / 2 ^ 64 = wordsOfCells cs := by
      have := (BitVec.ofInt 64 c).isLt
      rw [wordsOfCells]
      omega
    rw [List.length_cons, Nat.succ_add, cellsOfWords, hdiv, ih fun x hx => h x (List.mem_cons_of_mem _ hx),
      wordsOfCells, cellOfWord_ofInt_add _ _ (h c List.mem_cons_self), List.cons_append]

theorem wordsOfCells_lt (cs : List Int) : wordsOfCells cs < 2 ^ (64 * cs.length) := by
  induction cs with
  | nil => decide
  | cons c cs ih =>
    have := (BitVec.ofInt 64 c).isLt
    rw [wordsOfCells, List.length_cons, Nat.mul_succ, Nat.pow_add]
    omega

theorem Instr.length_encode (i : Instr) : (encode i).length = i.width := by
  simp [encode, Instr.width, Opcode.width, i.operands_length, Nat.add_comm]

theorem Opcode.width_le_four (o : Opcode) : o.width ≤ 4 := by
  cases o <;> decide

/-- The opcode cell of an instruction has at most five digits. -/
theorem Instr.opcodeCell_lt (i : Instr) : i.opcodeCell < 100000 := by
  have hdigits : ∀ qs : List Param, modeDigits qs < 10 ^ qs.length := by
    intro qs
    induction qs with
    | nil => decide
    | cons q qs ih =>
      have := q.mode.digit_le_two
      rw [modeDigits, List.length_cons, Nat.pow_succ]
      omega
  have hlen : i.operands.length ≤ 3 := by
    have := i.opcode.width_le_four
    rw [Opcode.width] at this
    rw [i.operands_length]
    omega
  have hnum := i.opcode.number_lt
  have hmodes := Nat.lt_of_lt_of_le (hdigits i.operands) (Nat.pow_le_pow_right (by decide) hlen)
  rw [Instr.opcodeCell]
  omega

theorem Instr.encode_isCell {i : Instr} (h : i.wellFormed Params.standard = true) :
    ∀ c ∈ encode i, Params.standard.IsCell c := by
  intro c hc
  rcases List.mem_cons.1 hc with rfl | hc
  · have := i.opcodeCell_lt
    exact ⟨Int.le_trans (by decide : Params.standard.cellMin ≤ 0) (Int.natCast_nonneg _),
      Int.le_trans (by omega) (by decide : (100000 : Int) ≤ Params.standard.cellMax)⟩
  · obtain ⟨q, hq, rfl⟩ := List.mem_map.1 hc
    exact (Instr.wellFormed_iff.1 h).1 q hq

/-- Settles O3: the words hold the encoding and cells of 0 after it, and O1 decodes it whatever follows. -/
theorem encodedWordsDecodeToTheInstruction : Obligations.EncodedWordsDecodeToTheInstruction := by
  intro i h
  have hcells : tableCells (64 * i.width) (wordsOfCells (encode i)) =
      encode i ++ List.replicate (4 - i.width) 0 := by
    have hlen : 4 = (encode i).length + (4 - i.width) := by
      have : i.width ≤ 4 := i.opcode.width_le_four
      rw [i.length_encode]
      omega
    rw [tableCells, ← i.length_encode, Nat.mod_eq_of_lt (wordsOfCells_lt _), i.length_encode]
    conv => lhs; rw [hlen]
    exact cellsOfWords_wordsOfCells _ _ (Instr.encode_isCell h)
  rw [decodeTableWord, hcells, encodedInstructionDecodesToItself _ i _ h]

end Sys2Proof
end

section
/-! PROOFS. A store read back, and the resolution of parameters (20_memory.md section 2, 30_encoding.md section 6). -/

namespace Sys2Proof.Machine

/-- Settles O10. -/
theorem storedCellIsReadBack : Obligations.StoredCellIsReadBack := by
  intro s t a v h
  obtain ⟨hacc, rfl⟩ := State.memWrite_ok h
  refine ⟨State.memRead_store_self v hacc, fun b hb => State.memRead_store_other s v hb, rfl,
    s.store_imageLength a v, fun ha => ?_⟩
  rw [(State.store_ext_region v ha).2, Memory.lookup_insert_self]

theorem not_isPtr_iff {p : Params} {v : Int} : ¬ p.IsPtr v ↔ v < 0 ∨ (p.ptrMax : Int) < v := by
  rw [Params.IsPtr]
  omega

/-- R93, R94: the address an input parameter names is a pointer. -/
theorem State.resolveIn_address (s : State) {a : Nat} (h : a ≤ s.params.ptrMax) :
    (toPtr s.params .operand (a : Int)).bind s.memRead = s.memRead a := by
  rw [toPtr_natCast _ h, bind_ok]

/-- Settles O11. -/
theorem inputOperandsResolveByMode : Obligations.InputOperandsResolveByMode := by
  intro s r
  refine ⟨rfl, fun a ha => ⟨?_, fun hr => ?_⟩, fun hr => ?_, fun hr => ?_⟩
  · rintro rfl
    exact s.resolveIn_address ha
  · rw [State.resolveIn, hr, s.resolveIn_address ha]
  · rw [State.resolveIn, toPtr_of_not_isPtr _ (not_isPtr_iff.2 hr), bind_error]
  · rw [State.resolveIn, toPtr_of_not_isPtr _ (not_isPtr_iff.2 hr), bind_error]

/-- Settles O12. -/
theorem outputAddressesResolveByMode : Obligations.OutputAddressesResolveByMode := by
  intro s op r
  refine ⟨fun a ha => ⟨?_, fun hr => ?_⟩, fun hr => ?_, fun hr => ?_⟩
  · rintro rfl
    exact toPtr_natCast _ ha
  · rw [State.resolveOut, hr, toPtr_natCast _ ha]
  · exact toPtr_of_not_isPtr _ (not_isPtr_iff.2 hr)
  · exact toPtr_of_not_isPtr _ (not_isPtr_iff.2 hr)

end Sys2Proof.Machine
end

section
/-! PROOFS. Narrowing to a cell under OVERFLOW_MODE = wrap (41_arithmetic.md R152). -/

namespace Sys2Proof.Machine

theorem isCell_iff {p : Params} {v : Int} : p.IsCell v ↔ -(p.cellHalf : Int) ≤ v ∧ v < p.cellHalf := by
  rw [Params.IsCell, Params.cellMin, Params.cellMax, signedMin, signedMax, Params.cellHalf]
  omega

theorem cellHalf_pos (p : Params) : 0 < p.cellHalf := Nat.two_pow_pos _

/-- The cell range has `2 ^ CELL_WIDTH` values. -/
theorem two_mul_cellHalf {p : Params} (h : 1 ≤ p.cellWidth) : 2 * p.cellHalf = 2 ^ p.cellWidth := by
  rw [Params.cellHalf, signedHalf, ← Nat.pow_succ', Nat.succ_eq_add_one, Nat.sub_add_cancel h]

theorem wrapCell_isCell (p : Params) (v : Int) : p.IsCell (wrapCell p v) := by
  have hpos := cellHalf_pos p
  have hlo := Int.emod_nonneg (v + p.cellHalf) (b := ((2 * p.cellHalf : Nat) : Int)) (by omega)
  have hhi := Int.emod_lt_of_pos (v + p.cellHalf) (b := ((2 * p.cellHalf : Nat) : Int)) (by omega)
  rw [isCell_iff, wrapCell]
  omega

theorem dvd_sub_wrapCell (p : Params) (v : Int) : ((2 * p.cellHalf : Nat) : Int) ∣ v - wrapCell p v := by
  have h := Int.dvd_self_sub_emod (x := v + p.cellHalf) (m := ((2 * p.cellHalf : Nat) : Int))
  rwa [show v - wrapCell p v = v + p.cellHalf - (v + p.cellHalf) % ((2 * p.cellHalf : Nat) : Int) by
    rw [wrapCell]; omega]

/-- A cell congruent to `v` is what `wrapCell` gives for `v`: shifted up by half the range, both are remainders. -/
theorem eq_wrapCell {p : Params} {v w : Int} (hw : p.IsCell w) (h : ((2 * p.cellHalf : Nat) : Int) ∣ v - w) :
    w = wrapCell p v := by
  rw [isCell_iff] at hw
  have hrem : (v + p.cellHalf) % ((2 * p.cellHalf : Nat) : Int) = w + p.cellHalf := by
    rw [← Int.emod_eq_of_lt (a := w + p.cellHalf) (b := ((2 * p.cellHalf : Nat) : Int)) (by omega) (by omega)]
    exact Int.emod_eq_emod_iff_emod_sub_eq_zero.2 (Int.emod_eq_zero_of_dvd (by
      rwa [show v + p.cellHalf - (w + p.cellHalf) = v - w by omega]))
  rw [wrapCell, hrem]
  omega

/-- Under wrap, `toCell` is `wrapCell` for every integer, those of the cell range too. -/
theorem toCell_eq_wrapCell {p : Params} (hm : p.overflow = .wrap) (v : Int) : toCell p v = .ok (wrapCell p v) := by
  by_cases hv : p.IsCell v
  · rw [toCell_of_isCell hv, ← eq_wrapCell hv (by simp)]
  · exact toCell_wrap hv hm

/-- Under wrap, a cell congruent to `v` is what `toCell` answers. -/
theorem toCell_of_dvd {p : Params} {v w : Int} (hm : p.overflow = .wrap) (hwidth : 1 ≤ p.cellWidth)
    (hw : p.IsCell w) (h : ((2 ^ p.cellWidth : Nat) : Int) ∣ v - w) : toCell p v = .ok w := by
  rw [toCell_eq_wrapCell hm, eq_wrapCell hw (by rwa [two_mul_cellHalf hwidth])]

/-- What `toCell` answers is a cell, in either mode. -/
theorem toCell_isCell {p : Params} {v w : Int} (h : toCell p v = .ok w) : p.IsCell w := by
  by_cases hv : p.IsCell v
  · rw [toCell_of_isCell hv] at h
    exact Except.ok.inj h ▸ hv
  · cases hm : p.overflow with
    | fault =>
      rw [toCell_fault hv hm] at h
      cases h
    | wrap =>
      rw [toCell_wrap hv hm] at h
      exact Except.ok.inj h ▸ wrapCell_isCell p v

/-- Settles O24. -/
theorem wrapModeReducesModuloTheCellRange : Obligations.WrapModeReducesModuloTheCellRange := by
  intro p v hm hwidth
  rw [← two_mul_cellHalf hwidth]
  exact ⟨wrapCell p v, toCell_eq_wrapCell hm v, wrapCell_isCell p v, dvd_sub_wrapCell p v,
    fun w hw => eq_wrapCell hw⟩

end Sys2Proof.Machine
end

section
/-! PROOFS. What `Operate` and the commit answer, case by case (40_execution.md R120, R121). -/

namespace Sys2Proof.Machine

/-! ### The commit of a `Go` effect -/

/-- R216, place 8: the next pc is no pointer. -/
theorem State.finish_of_not_isPtr (s : State) (action : CommitAction) {next : Int} {which : PtrUse}
    (h : ¬ s.params.IsPtr next) :
    s.finish (.ok (.go action next which)) = s.faultEntry (.memoryCellIsInvalidPointer which next) := by
  simp only [State.finish_go, State.advance, toPtr_of_not_isPtr which h, bind_error]

/-- R216, place 9: the next pc is a pointer, the destination cannot be accessed. -/
theorem State.finish_of_not_accessible {s : State} {d : Nat} (v : Int) {next : Int} {which : PtrUse}
    (hnext : s.params.IsPtr next) (h : ¬ s.Accessible d) :
    s.finish (.ok (.go (.memWrite d v) next which)) = s.faultEntry (.writeMemoryOutOfBounds d) := by
  simp only [State.finish_go, State.advance, State.perform, toPtr_of_isPtr which hnext,
    State.memWrite_outOfBounds v h, bind_ok, bind_error]

/-- The normal advance stays within the pointers. -/
theorem State.nextPc_isPtr {s : State} {op : Opcode} (h : s.pc + op.width ≤ s.params.ptrMax) :
    s.params.IsPtr (s.nextPc op) := by
  rw [State.nextPc, Params.IsPtr]
  omega

/-- The normal advance leaves the pointers (R23). -/
theorem State.nextPc_not_isPtr {s : State} {op : Opcode} (h : s.params.ptrMax < s.pc + op.width) :
    ¬ s.params.IsPtr (s.nextPc op) := by
  rw [State.nextPc, Params.IsPtr]
  omega

/-- An action that succeeds, then the normal advance. -/
theorem State.finish_advance {s s' : State} {action : CommitAction} {op : Opcode}
    (hpc : s.pc + op.width ≤ s.params.ptrMax) (ha : s.perform action = .ok s') :
    s.finish (.ok (.go action (s.nextPc op) .pc)) = s'.withPc (s.pc + op.width) :=
  State.finish_go_ok (toPtr_natCast (a := s.pc + op.width) .pc hpc) ha

/-- Equal effects are committed alike. -/
theorem next_finish_congr {s : State} {r r' : Except Err Effect} (h : r = r') :
    (.next (s.finish r) : Host.Outcome State Fault Refusal) = .next (s.finish r') := by
  rw [h]

/-- A store, then the normal advance. -/
theorem State.finish_store {s : State} {d : Nat} (v : Int) {op : Opcode} (hpc : s.pc + op.width ≤ s.params.ptrMax)
    (hacc : s.Accessible d) :
    s.finish (.ok (.go (.memWrite d v) (s.nextPc op) .pc)) = (s.store d v).withPc (s.pc + op.width) :=
  State.finish_advance hpc (State.memWrite_accessible v hacc)

/-! ### The four instructions with an ALU result -/

/-- The ALU result as it is handed to the store: that of ADD and MUL through `toCell` (R152). -/
def narrowedResult (p : Params) (i : Instr) (x y : Int) : Except Err Int :=
  if i.opcode = .add ∨ i.opcode = .mul then toCell p (exactResult i x y) else .ok (exactResult i x y)

theorem narrowedResult_exists {p : Params} {i : Instr} {x y w : Int}
    (h : i.opcode = .add ∨ i.opcode = .mul → toCell p (exactResult i x y) = .ok w) :
    ∃ r, narrowedResult p i x y = .ok r := by
  rw [narrowedResult]
  split
  · exact ⟨w, h ‹_›⟩
  · exact ⟨_, rfl⟩

theorem mem_aluInstr {a b dst : Param} {i : Instr} :
    i ∈ AluInstr a b dst ↔ i = .add a b dst ∨ i = .mul a b dst ∨ i = .lt a b dst ∨ i = .eq a b dst := by
  simp [AluInstr]

section
variable {s : State} {a b dst : Param} {i : Instr} {x y r : Int} {d : Nat}

theorem width_of_mem_aluInstr (hi : i ∈ AluInstr a b dst) : i.opcode.width = 4 := by
  rcases mem_aluInstr.1 hi with rfl | rfl | rfl | rfl <;> rfl

theorem outputParam_of_mem_aluInstr (hi : i ∈ AluInstr a b dst) : i.outputParam = some dst := by
  rcases mem_aluInstr.1 hi with rfl | rfl | rfl | rfl <;> rfl

/-- The four meanings are one, up to the result. -/
theorem exec_alu (s : State) (hi : i ∈ AluInstr a b dst) :
    exec i s = .next (s.finish (s.operateToMemory i.opcode a b dst (narrowedResult s.params i))) := by
  rcases mem_aluInstr.1 hi with rfl | rfl | rfl | rfl
  · rfl
  · rfl
  · have : narrowedResult s.params (.lt a b dst) = fun x y => .ok (lessThan x y) := by
      funext x y
      simp [narrowedResult, exactResult, lessThan, truthCell, Instr.opcode]
    rw [this]
    rfl
  · have : narrowedResult s.params (.eq a b dst) = fun x y => .ok (equals x y) := by
      funext x y
      simp [narrowedResult, exactResult, equals, truthCell, Instr.opcode]
    rw [this]
    rfl

theorem exec_alu_error_left {e : Err} (hi : i ∈ AluInstr a b dst) (ha : s.resolveIn a = .error e) :
    exec i s = .next (s.faultEntry e) := by
  rw [exec_alu s hi, State.operateToMemory, ha, bind_error, State.finish_error]

theorem exec_alu_error_right {e : Err} (hi : i ∈ AluInstr a b dst) (ha : s.resolveIn a = .ok x)
    (hb : s.resolveIn b = .error e) : exec i s = .next (s.faultEntry e) := by
  rw [exec_alu s hi, State.operateToMemory, ha, bind_ok, hb, bind_error, State.finish_error]

theorem exec_alu_error_out {e : Err} (hi : i ∈ AluInstr a b dst) (ha : s.resolveIn a = .ok x)
    (hb : s.resolveIn b = .ok y) (hd : s.resolveOut i.opcode dst = .error e) :
    exec i s = .next (s.faultEntry e) := by
  rw [exec_alu s hi, State.operateToMemory, ha, bind_ok, hb, bind_ok, hd, bind_error, State.finish_error]

variable (hi : i ∈ AluInstr a b dst) (ha : s.resolveIn a = .ok x) (hb : s.resolveIn b = .ok y)
  (hd : s.resolveOut i.opcode dst = .ok d)
include hi ha hb hd

theorem exec_alu_error_result {e : Err} (hr : narrowedResult s.params i x y = .error e) :
    exec i s = .next (s.faultEntry e) := by
  rw [exec_alu s hi, State.operateToMemory, ha, bind_ok, hb, bind_ok, hd, bind_ok, hr, bind_error,
    State.finish_error]

variable (hr : narrowedResult s.params i x y = .ok r)
include hr

/-- All resolved and computed: the rest is the commit of a store. -/
theorem exec_alu_resolved :
    exec i s = .next (s.finish (.ok (.go (.memWrite d r) (s.nextPc i.opcode) .pc))) := by
  rw [exec_alu s hi, State.operateToMemory, ha, bind_ok, hb, bind_ok, hd, bind_ok, hr, bind_ok]

theorem exec_alu_completes (hpc : s.pc + 4 ≤ s.params.ptrMax) (hacc : s.Accessible d) :
    exec i s = .next { s.store d r with pc := s.pc + 4 } := by
  have hw := width_of_mem_aluInstr hi
  rw [exec_alu_resolved hi ha hb hd hr, State.finish_store r (hw ▸ hpc) hacc, hw]
  rfl

end

/-! ### Input -/

section
variable {s : State} {dst : Param} {d : Nat}

theorem exec_inp_error {e : Err} (h : s.resolveOut .inp dst = .error e) :
    exec (.inp dst) s = .next (s.faultEntry e) := by
  simp only [exec, execInp, h]

theorem exec_inp_wait (h : s.resolveOut .inp dst = .ok d) (ha : s.answer = none) :
    exec (.inp dst) s = .next (s.pull.withStatus .waitingOnInput) := by
  simp only [exec, execInp, h, ha, State.finish_wait]

/-- With a value pulled, the rest is the commit of a store. -/
theorem exec_inp_value {v : Int} (h : s.resolveOut .inp dst = .ok d) (ha : s.answer = some v) :
    exec (.inp dst) s = .next (s.pull.finish (.ok (.go (.memWrite d v) (s.pull.nextPc .inp) .pc))) := by
  simp only [exec, execInp, h, ha]
  rfl

theorem exec_inp_completes {v : Int} (h : s.resolveOut .inp dst = .ok d) (ha : s.answer = some v)
    (hpc : s.pc + 2 ≤ s.params.ptrMax) (hacc : s.Accessible d) :
    exec (.inp dst) s = .next { s.store d v with pc := s.pc + 2, source := s.source.pulled } := by
  rw [exec_inp_value h ha, State.finish_store (s := s.pull) (op := .inp) v hpc hacc]
  rfl

end

/-! ### The other instructions -/

section
variable {s : State} {u w : Param} {x t : Int} {op : Opcode}

theorem State.operateOnValue_ok {action : Int → Except Err CommitAction} {act : CommitAction}
    (hu : s.resolveIn u = .ok x) (ha : action x = .ok act) :
    s.operateOnValue op u action = .ok (.go act (s.nextPc op) .pc) := by
  rw [State.operateOnValue, hu, bind_ok, ha, bind_ok]

theorem State.operateOnValue_error {action : Int → Except Err CommitAction} {e : Err} (hu : s.resolveIn u = .error e) :
    s.operateOnValue op u action = .error e := by
  rw [State.operateOnValue, hu, bind_error]

theorem State.operateJump_error_condition {taken : Int → Bool} {e : Err} (hu : s.resolveIn u = .error e) :
    s.operateJump op u w taken = .error e := by
  rw [State.operateJump, hu, bind_error]

theorem State.operateJump_error_target {taken : Int → Bool} {e : Err} (hu : s.resolveIn u = .ok x)
    (hw : s.resolveIn w = .error e) : s.operateJump op u w taken = .error e := by
  rw [State.operateJump, hu, bind_ok, hw, bind_error]

theorem State.operateJump_taken {taken : Int → Bool} (hu : s.resolveIn u = .ok x) (hw : s.resolveIn w = .ok t)
    (h : taken x = true) : s.operateJump op u w taken = .ok (.go .nothing t .target) := by
  rw [State.operateJump, hu, bind_ok, hw, bind_ok, if_pos h]

theorem State.operateJump_not_taken {taken : Int → Bool} (hu : s.resolveIn u = .ok x)
    (hw : s.resolveIn w = .ok t) (h : taken x = false) :
    s.operateJump op u w taken = .ok (.go .nothing (s.nextPc op) .pc) := by
  rw [State.operateJump, hu, bind_ok, hw, bind_ok, if_neg (by simp [h])]

theorem exec_out_resolved (hu : s.resolveIn u = .ok x) :
    exec (.out u) s = .next (s.finish (.ok (.go (.outputPush x) (s.nextPc .out) .pc))) :=
  next_finish_congr (State.operateOnValue_ok hu rfl)

theorem exec_arb_resolved {y : Int} (hu : s.resolveIn u = .ok x) (hy : toCell s.params (s.rb + x) = .ok y) :
    exec (.arb u) s = .next (s.finish (.ok (.go (.setRb y) (s.nextPc .arb) .pc))) :=
  next_finish_congr (State.operateOnValue_ok hu (congrArg (Except.map CommitAction.setRb) hy))

theorem exec_arb_completes {y : Int} (hu : s.resolveIn u = .ok x) (hy : toCell s.params (s.rb + x) = .ok y)
    (hpc : s.pc + 2 ≤ s.params.ptrMax) : exec (.arb u) s = .next { s with rb := y, pc := s.pc + 2 } := by
  rw [exec_arb_resolved hu hy, State.finish_advance (op := .arb) hpc rfl]
  rfl

variable (hu : s.resolveIn u = .ok x) (hw : s.resolveIn w = .ok t)
include hu hw

theorem exec_jt_taken (hx : x ≠ 0) : exec (.jt u w) s = .next (s.finish (.ok (.go .nothing t .target))) :=
  next_finish_congr (State.operateJump_taken hu hw (decide_eq_true hx))

theorem exec_jt_not_taken (hx : x = 0) :
    exec (.jt u w) s = .next (s.finish (.ok (.go .nothing (s.nextPc .jt) .pc))) :=
  next_finish_congr (State.operateJump_not_taken hu hw (decide_eq_false fun hne => hne hx))

theorem exec_jf_taken (hx : x = 0) : exec (.jf u w) s = .next (s.finish (.ok (.go .nothing t .target))) :=
  next_finish_congr (State.operateJump_taken hu hw (decide_eq_true hx))

theorem exec_jf_not_taken (hx : x ≠ 0) :
    exec (.jf u w) s = .next (s.finish (.ok (.go .nothing (s.nextPc .jf) .pc))) :=
  next_finish_congr (State.operateJump_not_taken hu hw (decide_eq_false hx))

end

end Sys2Proof.Machine
end

section
/-! PROOFS. The completion of each instruction (sections 41 to 45 of the spec). -/

namespace Sys2Proof.Machine

/-- Settles O13. -/
theorem addWritesTheExactSum : Obligations.AddWritesTheExactSum :=
  fun _ _ _ _ _ _ _ ha hb hd hcell => exec_alu_completes (by simp [AluInstr]) ha hb hd (toCell_of_isCell hcell)

/-- Settles O14. -/
theorem multiplyWritesTheExactProduct : Obligations.MultiplyWritesTheExactProduct :=
  fun _ _ _ _ _ _ _ ha hb hd hcell => exec_alu_completes (by simp [AluInstr]) ha hb hd (toCell_of_isCell hcell)

/-- Settles O15. -/
theorem lessThanWritesOneOrZero : Obligations.LessThanWritesOneOrZero := by
  intro s a b dst x y d ha hb hd hpc hacc
  have key : ∀ r, exactResult (.lt a b dst) x y = r →
      exec (.lt a b dst) s = .next { s.store d r with pc := s.pc + 4 } := fun r hr =>
    exec_alu_completes (by simp [AluInstr]) ha hb hd (congrArg Except.ok hr) hpc hacc
  exact ⟨fun h => key 1 (if_pos h), fun h => key 0 (if_neg (Int.not_lt.2 h))⟩

/-- Settles O16. -/
theorem equalsWritesOneOrZero : Obligations.EqualsWritesOneOrZero := by
  intro s a b dst x y d ha hb hd hpc hacc
  have key : ∀ r, exactResult (.eq a b dst) x y = r →
      exec (.eq a b dst) s = .next { s.store d r with pc := s.pc + 4 } := fun r hr =>
    exec_alu_completes (by simp [AluInstr]) ha hb hd (congrArg Except.ok hr) hpc hacc
  exact ⟨fun h => key 1 (if_pos h), fun h => key 0 (if_neg h)⟩

/-- Settles O17. -/
theorem inputWritesThePulledValueOrWaits : Obligations.InputWritesThePulledValueOrWaits := by
  intro s dst d hd
  refine ⟨fun v ha => exec_inp_completes hd ha, fun ha => exec_inp_wait hd ha, ?queued, ?silent, ?steady, ?draws⟩
  case queued =>
    intro a answers rest h
    exact ⟨by rw [State.answer, h, InputSource.answer_queued], by rw [h, InputSource.pulled_queued]⟩
  case silent =>
    intro h
    exact ⟨by rw [State.answer, h, InputSource.answer_silent], by rw [h, InputSource.pulled_silent]⟩
  case steady =>
    intro a h
    exact ⟨by rw [State.answer, h, InputSource.answer_steady], by rw [h, InputSource.pulled_steady]⟩
  case draws =>
    intro view n h
    have hcells : s.source.Cells s.params := by
      rw [h]
      exact ⟨nofun, nofun⟩
    exact ⟨fun v => InputSource.answer_isCell hcells, by rw [State.answer, h, InputSource.answer_draws],
      by rw [h, InputSource.pulled_draws]⟩

/-- Settles O18. -/
theorem outputPushesItsOperand : Obligations.OutputPushesItsOperand := by
  intro s v x hv hpc
  rw [exec_out_resolved hv, State.finish_advance (op := .out) hpc rfl]
  rfl

/-- A jump with no error: to a target that is a pointer, or to the next instruction. -/
theorem State.finish_jump {s : State} {t : Int} (h0 : 0 ≤ t) (h1 : t ≤ s.params.ptrMax) :
    s.finish (.ok (.go .nothing t .target)) = s.withPc t.toNat :=
  State.finish_go_ok (toPtr_of_isPtr .target ⟨h0, h1⟩) rfl

/-- Settles O19. -/
theorem jumpIfTrueJumpsOnNonZero : Obligations.JumpIfTrueJumpsOnNonZero := by
  intro s cond target c t hc ht
  refine ⟨fun hne h0 h1 => ?_, fun heq hpc => ?_⟩
  · rw [exec_jt_taken hc ht hne, State.finish_jump h0 h1]
    rfl
  · rw [exec_jt_not_taken hc ht heq, State.finish_advance (op := .jt) hpc rfl]
    rfl

/-- Settles O20. -/
theorem jumpIfFalseJumpsOnZero : Obligations.JumpIfFalseJumpsOnZero := by
  intro s cond target c t hc ht
  refine ⟨fun heq h0 h1 => ?_, fun hne hpc => ?_⟩
  · rw [exec_jf_taken hc ht heq, State.finish_jump h0 h1]
    rfl
  · rw [exec_jf_not_taken hc ht hne, State.finish_advance (op := .jf) hpc rfl]
    rfl

/-- Settles O21. -/
theorem adjustRelativeBaseAddsItsOperand : Obligations.AdjustRelativeBaseAddsItsOperand :=
  fun _ _ _ hv hcell => exec_arb_completes hv (toCell_of_isCell hcell)

/-- Settles O22. -/
theorem haltOnlySetsHalted : Obligations.HaltOnlySetsHalted := fun _ => rfl

/-- Settles O25. -/
theorem wrapModeCompletesWithTheReducedResult : Obligations.WrapModeCompletesWithTheReducedResult := by
  intro s a b dst x y w d hm hwidth hw ha
  refine ⟨fun hb hd hdvd => ?_, fun hb hd hdvd => ?_, fun hdvd => ?_⟩
  · exact exec_alu_completes (by simp [AluInstr]) ha hb hd (toCell_of_dvd hm hwidth hw hdvd)
  · exact exec_alu_completes (by simp [AluInstr]) ha hb hd (toCell_of_dvd hm hwidth hw hdvd)
  · exact exec_arb_completes ha (toCell_of_dvd hm hwidth hw hdvd)

end Sys2Proof.Machine
end

section
/-! PROOFS. Where an instruction takes an error (60_exceptions.md section 2). -/

namespace Sys2Proof.Machine

/-- Settles O23. -/
theorem outOfRangeResultFaults : Obligations.OutOfRangeResultFaults := by
  intro s a b dst x y d hm ha
  refine ⟨fun hb hd hcell => ?_, fun hb hd hcell => ?_, fun hcell => ?_⟩
  · exact exec_alu_error_result (i := .add a b dst) (by simp [AluInstr]) ha hb hd (toCell_fault hcell hm)
  · exact exec_alu_error_result (i := .mul a b dst) (by simp [AluInstr]) ha hb hd (toCell_fault hcell hm)
  · have herr : s.operateOnValue .arb a (fun x => (toCell s.params (s.rb + x)).map .setRb) =
        .error (.arithmeticOverflow (s.rb + x)) := by
      rw [State.operateOnValue, ha, bind_ok, toCell_fault hcell hm]
      rfl
    exact next_finish_congr herr

/-- Settles O26. -/
theorem inaccessibleDestinationFaults : Obligations.InaccessibleDestinationFaults := by
  intro s d hacc
  refine ⟨fun a b dst x y w i hi ha hb hd hw hpc => ?_, fun dst v hd ha hpc => ?_⟩
  · obtain ⟨r, hr⟩ := narrowedResult_exists hw
    rw [exec_alu_resolved hi ha hb hd hr,
      State.finish_of_not_accessible r (State.nextPc_isPtr (width_of_mem_aluInstr hi ▸ hpc)) hacc]
    rfl
  · rw [exec_inp_value hd ha,
      State.finish_of_not_accessible (s := s.pull) v (State.nextPc_isPtr (op := .inp) hpc) hacc]
    rfl

/-- Settles O27. -/
theorem operandErrorsComeInParameterOrder : Obligations.OperandErrorsComeInParameterOrder :=
  fun _ _ _ _ _ _ hi => ⟨exec_alu_error_left hi, fun _ => exec_alu_error_right hi, fun _ _ => exec_alu_error_out hi⟩

/-- Settles O28. -/
theorem operandErrorsOfTheOtherInstructions : Obligations.OperandErrorsOfTheOtherInstructions := by
  intro s u w e
  refine ⟨fun hu => ⟨?_, ?_, ?_, ?_⟩, fun x hu hw => ⟨?_, ?_⟩, exec_inp_error⟩
  · exact next_finish_congr (State.operateOnValue_error hu)
  · exact next_finish_congr (State.operateOnValue_error hu)
  · exact next_finish_congr (State.operateJump_error_condition hu)
  · exact next_finish_congr (State.operateJump_error_condition hu)
  · exact next_finish_congr (State.operateJump_error_target hu hw)
  · exact next_finish_congr (State.operateJump_error_target hu hw)

/-- Settles O29. -/
theorem takenJumpChecksItsTarget : Obligations.TakenJumpChecksItsTarget := by
  intro s cond target c t hc ht hbad
  have hfault : s.finish (.ok (.go .nothing t .target)) = s.faultEntry (.memoryCellIsInvalidPointer .target t) :=
    s.finish_of_not_isPtr .nothing (not_isPtr_iff.2 hbad)
  exact ⟨fun hne => by rw [exec_jt_taken hc ht hne, hfault], fun heq => by rw [exec_jf_taken hc ht heq, hfault]⟩

/-- R23: an advance past PTR_MAX, whatever the action. -/
theorem State.finish_pastPtrMax {s : State} (action : CommitAction) {op : Opcode}
    (h : s.params.ptrMax < s.pc + op.width) :
    s.finish (.ok (.go action (s.nextPc op) .pc)) =
      s.faultEntry (.memoryCellIsInvalidPointer .pc (s.pc + op.width)) :=
  s.finish_of_not_isPtr action (State.nextPc_not_isPtr h)

/-- Settles O30. -/
theorem advancePastTheLastPointerFaults : Obligations.AdvancePastTheLastPointerFaults := by
  intro s a b dst x y d ha hb
  refine ⟨fun i hi w hd hw hpc => ?_, fun hpc => ⟨?_, fun w hw => ?_, fun v hd hv => ?_⟩,
    fun hpc => ⟨fun hx => ?_, fun hx => ?_⟩⟩
  · obtain ⟨r, hr⟩ := narrowedResult_exists hw
    have hwidth := width_of_mem_aluInstr hi
    rw [exec_alu_resolved hi ha hb hd hr, State.finish_pastPtrMax _ (hwidth ▸ hpc), hwidth]
    rfl
  · rw [exec_out_resolved ha, State.finish_pastPtrMax (op := .out) _ hpc]
    rfl
  · rw [exec_arb_resolved ha hw, State.finish_pastPtrMax (op := .arb) _ hpc]
    rfl
  · rw [exec_inp_value hd hv, State.finish_pastPtrMax (s := s.pull) (op := .inp) _ hpc]
    rfl
  · rw [exec_jt_not_taken ha hb hx, State.finish_pastPtrMax (op := .jt) _ hpc]
    rfl
  · rw [exec_jf_not_taken ha hb hx, State.finish_pastPtrMax (op := .jf) _ hpc]
    rfl

/-- Settles O31. -/
theorem faultEntryWritesStatusAndErrOnly : Obligations.FaultEntryWritesStatusAndErrOnly := fun _ _ => rfl

end Sys2Proof.Machine
end

section
/-! PROOFS. The fetch against memory (30_encoding.md section 4), and the step around it. -/

namespace Sys2Proof.Machine

/-! ### Parameter cells -/

/-- Cells that can be fetched are the parameters; the other direction of `State.fetchParams_ok`. -/
theorem State.fetchParams_of_reads {s : State} {i : Nat} {ps : List Param}
    (h : ∀ k (hk : k < ps.length), s.pc + i + k ≤ s.params.ptrMax ∧ s.memRead (s.pc + i + k) = .ok ps[k].raw) :
    s.fetchParams i (ps.map Param.mode) = .ok ps := by
  induction ps generalizing i with
  | nil => rfl
  | cons q ps ih =>
    obtain ⟨hptr, hread⟩ := h 0 (Nat.succ_pos _)
    have hrest : s.fetchParams (i + 1) (ps.map Param.mode) = .ok ps := ih fun k hk => by
      have := h (k + 1) (Nat.succ_lt_succ hk)
      rwa [show s.pc + i + (k + 1) = s.pc + (i + 1) + k by omega] at this
    have haddr : toPtr s.params .param ((s.pc : Int) + i) = .ok (s.pc + i) := toPtr_natCast .param hptr
    rw [Nat.add_zero] at hread
    simp only [List.map_cons, State.fetchParams, haddr, hread, hrest, bind_ok, List.getElem_cons_zero,
      Param.param_mode_raw]

/-- R86, phase 3: an error behind `k` cells that can be fetched is the answer. -/
theorem State.fetchParams_error_of_drop {s : State} {e : Err} {k i : Nat} {ms : List Mode}
    (hpre : ∀ j < k, s.pc + i + j ≤ s.params.ptrMax ∧ ∃ v, s.memRead (s.pc + i + j) = .ok v)
    (h : s.fetchParams (k + i) (ms.drop k) = .error e) : s.fetchParams i ms = .error e := by
  induction k generalizing i ms with
  | zero => simpa using h
  | succ k ih =>
    cases ms with
    | nil => cases h
    | cons m ms =>
      obtain ⟨hptr, v, hread⟩ := hpre 0 k.succ_pos
      have hrest : s.fetchParams (i + 1) ms = .error e := by
        refine ih (fun j hj => ?_) (by rwa [show k + (i + 1) = k + 1 + i by omega])
        have := hpre (j + 1) (Nat.succ_lt_succ hj)
        rwa [show s.pc + i + (j + 1) = s.pc + (i + 1) + j by omega] at this
      have haddr : toPtr s.params .param ((s.pc : Int) + i) = .ok (s.pc + i) := toPtr_natCast .param hptr
      rw [Nat.add_zero] at hread
      simp only [State.fetchParams, haddr, hread, hrest, bind_ok, bind_error]

/-! ### The whole fetch -/

/-- Everything the fetch reads when it answers an instruction. -/
theorem State.fetchDecode_ok {s : State} {i : Instr} (h : s.fetchDecode = .ok i) :
    ∃ c, s.memRead s.pc = .ok c ∧ decodeHead c = .ok ⟨i.opcode, i.operands.map Param.mode⟩ ∧
      ∀ k (hk : k < i.operands.length), s.memRead (s.pc + 1 + k) = .ok i.operands[k].raw := by
  obtain ⟨c, hc, h⟩ := bind_eq_ok h
  obtain ⟨hd, hhead, h⟩ := bind_eq_ok h
  obtain ⟨ps, hps, h⟩ := bind_eq_ok h
  obtain ⟨hop, rfl⟩ := assembleInstr_ok h
  obtain ⟨hmodes, hreads⟩ := State.fetchParams_ok hps
  exact ⟨c, hc, by rw [hhead, hop, hmodes], fun k hk => (hreads k hk).2⟩

/-- The fetch and `decode` agree on cells that stand in memory. -/
theorem State.fetchDecode_of_decode {s : State} {i : Instr} {cells : List Int} (hcells : s.HoldsAt s.pc cells)
    (h : decode cells = .ok (i, [])) : s.fetchDecode = .ok i := by
  obtain ⟨c, hhead, rfl⟩ := decode_ok h
  have hc : s.memRead s.pc = .ok c := (hcells 0 (Nat.succ_pos _)).2
  have hparams : s.fetchParams 1 (i.operands.map Param.mode) = .ok i.operands :=
    State.fetchParams_of_reads fun k hk => by
      have := hcells (k + 1) (by simpa using hk)
      rw [show s.pc + 1 + k = s.pc + (k + 1) by omega]
      simpa using this
  simp only [State.fetchDecode, hc, hhead, hparams, bind_ok, assembleInstr_operands]

/-- The step of a Running CORE whose fetch answers an instruction. -/
theorem step_of_fetchDecode {s : State} {i : Instr} (hrun : s.status = .running) (h : s.fetchDecode = .ok i) :
    step s = exec i s := by
  rw [step_running hrun, State.cycle_of_ok h]

/-- The step of a Running CORE whose fetch raises. -/
theorem step_of_fetchDecode_error {s : State} {e : Err} (hrun : s.status = .running)
    (h : s.fetchDecode = .error e) : step s = .next (s.faultEntry e) := by
  rw [step_running hrun, State.cycle_of_error h]

/-- Settles O36. -/
theorem stepRunsTheDecodedInstruction : Obligations.StepRunsTheDecodedInstruction :=
  fun _ _ _ hrun hcells h => step_of_fetchDecode hrun (State.fetchDecode_of_decode hcells h)

/-- Settles O37: O36, and O1 with nothing behind the encoding. -/
theorem stepRunsTheEncodedInstruction : Obligations.StepRunsTheEncodedInstruction := by
  intro s i hrun hwf hcells
  refine stepRunsTheDecodedInstruction s i _ hrun hcells ?_
  simpa using encodedInstructionDecodesToItself _ i [] hwf

/-- Settles O38. -/
theorem opcodeCellErrorsAreTakenFirst : Obligations.OpcodeCellErrorsAreTakenFirst := by
  intro s e hrun
  refine ⟨fun hread => ?_, fun c hread hhead => ?_⟩
  · exact step_of_fetchDecode_error hrun (by rw [State.fetchDecode, hread, bind_error])
  · exact step_of_fetchDecode_error hrun (by rw [State.fetchDecode, hread, bind_ok, hhead, bind_error])

/-- Settles O39: both errors are the answer of the parameter fetch from parameter `k + 1` on. -/
theorem parameterCellErrorsComeInOrder : Obligations.ParameterCellErrorsComeInOrder := by
  intro s c h k hrun hread hhead hk hpre
  have key : ∀ e, s.fetchParams (k + 1) (h.modes.drop k) = .error e → step s = .next (s.faultEntry e) := by
    intro e he
    refine step_of_fetchDecode_error hrun ?_
    rw [State.fetchDecode, hread, bind_ok, hhead, bind_ok, State.fetchParams_error_of_drop hpre he, bind_error]
  rw [List.drop_eq_getElem_cons hk] at key
  refine ⟨fun hptr => key _ ?_, fun e hptr he => key e ?_⟩
  · have haddr : (s.pc : Int) + ((k + 1 : Nat) : Int) = s.pc + 1 + k := by omega
    rw [State.fetchParams, haddr, toPtr_of_not_isPtr _ (by rw [Params.IsPtr]; omega), bind_error]
  · have haddr : (s.pc : Int) + ((k + 1 : Nat) : Int) = ((s.pc + 1 + k : Nat) : Int) := by omega
    rw [State.fetchParams, haddr, toPtr_natCast _ hptr, bind_ok, he, bind_error]

/-- Settles O40. -/
theorem waitingStepRetriesFromTheFetch : Obligations.WaitingStepRetriesFromTheFetch := by
  intro s h
  rw [step_waiting h, step_running (s := { s with status := .running }) rfl]
  rfl

/-! ### Runs of more than one step -/

theorem State.withStatus_running_self {s : State} (h : s.status = .running) : s.withStatus .running = s := by
  rw [State.withStatus, ← h]

/-- An active CORE takes the cycle of the same CORE Running (R120, R128). -/
theorem step_active {s : State} (h : s.Active) : step s = (s.withStatus .running).cycle := by
  rcases h with hrun | hwait
  · rw [step_running hrun, State.withStatus_running_self hrun]
  · exact step_waiting hwait

theorem step_active_of_fetchDecode {s : State} {i : Instr} (hact : s.Active) (h : s.fetchDecode = .ok i) :
    step s = exec i (s.withStatus .running) := by
  rw [step_active hact, State.cycle_of_ok (by rwa [State.withStatus_fetchDecode])]

/-- An Input that waits leaves a state that differs from the one before in STATUS and the pull only. -/
theorem step_inp_wait {s : State} {dst : Param} {d : Nat} (hact : s.Active) (hf : s.fetchDecode = .ok (.inp dst))
    (hd : s.resolveOut .inp dst = .ok d) (ha : s.answer = none) :
    step s = .next (s.pull.withStatus .waitingOnInput) := by
  rw [step_active_of_fetchDecode hact hf,
    exec_inp_wait (d := d) (by rwa [State.withStatus_resolveOut]) (by rwa [State.withStatus_answer])]
  rfl

theorem step_inp_value {s : State} {dst : Param} {d : Nat} {v : Int} (hact : s.Active)
    (hf : s.fetchDecode = .ok (.inp dst)) (hd : s.resolveOut .inp dst = .ok d) (ha : s.answer = some v)
    (hpc : s.pc + 2 ≤ s.params.ptrMax) (hacc : s.Accessible d) :
    step s = .next { s.store d v with pc := s.pc + 2, source := s.source.pulled, status := .running } := by
  rw [step_active_of_fetchDecode hact hf,
    exec_inp_completes (s := s.withStatus .running) (d := d) (by rwa [State.withStatus_resolveOut])
      (by rwa [State.withStatus_answer]) hpc hacc]
  rfl

/-- Settles O41, by induction on the number of waits: after the first one the same Input runs on the source after
one pull. -/
theorem inputConsumesOneValueHoweverOftenItWaits : Obligations.InputConsumesOneValueHoweverOftenItWaits := by
  intro n
  induction n with
  | zero =>
    intro s dst d v hact hf hd hacc hpc _ hv
    rw [core_run_succ (step_inp_value hact hf hd hv hpc hacc), core_run_zero]
    rfl
  | succ n ih =>
    intro s dst d v hact hf hd hacc hpc hwaits hv
    rw [core_run_succ (step_inp_wait hact hf hd (hwaits 0 n.succ_pos))]
    have hf' : (s.pull.withStatus .waitingOnInput).fetchDecode = .ok (.inp dst) := by
      rw [State.withStatus_fetchDecode, State.fetchDecode_congr s.pull_memRead rfl rfl, hf]
    have hd' : (s.pull.withStatus .waitingOnInput).resolveOut .inp dst = .ok d := by
      rw [← hd]
      cases dst <;> rfl
    rw [ih (s.pull.withStatus .waitingOnInput) dst d v (.inr rfl) hf' hd' hacc hpc
      (fun k hk => hwaits (k + 1) (Nat.succ_lt_succ hk)) hv]
    rfl

/-- A cell whose low two digits are 99 is fetched as a Halt, its other digits being ignored (R91). -/
theorem State.fetchDecode_hlt {s : State} {c : Int} (hread : s.memRead s.pc = .ok c) (hc : 0 ≤ c)
    (hlow : low2 c = 99) : s.fetchDecode = .ok .hlt := by
  have hhead : decodeHead c = .ok ⟨.hlt, []⟩ := by
    rw [decodeHead_of_opcode (o := .hlt) hc (by rw [hlow]; rfl)]
    rfl
  rw [State.fetchDecode, hread, bind_ok, hhead, bind_ok]
  rfl

/-- Settles O42: the Add completes, and the next fetch reads the cell it has stored. -/
theorem storedHaltIsFetchedNext : Obligations.StoredHaltIsFetchedNext := by
  intro s a b dst x y c hrun hcells hwf ha hb hd hacc hcell hsum hc hlow
  subst hsum
  have hpc : s.pc + 4 ≤ s.params.ptrMax := (State.resolveOut_ok hd).1
  have hadd : step s = .next ((s.store (s.pc + 4) (x + y)).withPc (s.pc + 4)) := by
    rw [stepRunsTheEncodedInstruction s _ hrun hwf hcells,
      addWritesTheExactSum s a b dst x y (s.pc + 4) ha hb hd hcell hpc hacc]
    rfl
  have hfetch : ((s.store (s.pc + 4) (x + y)).withPc (s.pc + 4)).fetchDecode = .ok .hlt :=
    State.fetchDecode_hlt (State.memRead_store_self (x + y) hacc) hc hlow
  rw [core_run_succ hadd, core_run_succ (t := ((s.store (s.pc + 4) (x + y)).withPc (s.pc + 4)).withStatus .halted),
    core_run_zero]
  · rfl
  · exact step_of_fetchDecode (s := (s.store (s.pc + 4) (x + y)).withPc (s.pc + 4)) hrun hfetch

end Sys2Proof.Machine
end

section
/-! PROOFS. The ways an instruction and a step can end, each with the state it leaves. -/

namespace Sys2Proof.Machine

/-- How the cycle of an instruction decoded on `s` can end, on the state `s₀` that its commit stands on (`s`, or `s`
after the pull of an Input). -/
inductive ExecEnd (s : State) (i : Instr) (s₀ : State) : State → Prop where
  | faulted (e : Err) (he : MayRaise i e) : ExecEnd s i s₀ (s₀.faultEntry e)
  | waits (dst : Param) (hi : i = .inp dst) (ha : s.answer = none) : ExecEnd s i s₀ (s₀.withStatus .waitingOnInput)
  | halts (hi : i = .hlt) : ExecEnd s i s₀ (s₀.withStatus .halted)
  | moves (p : Nat) (hp : p ≤ s₀.params.ptrMax) (cond target : Param)
      (hi : i = .jt cond target ∨ i = .jf cond target) : ExecEnd s i s₀ (s₀.withPc p)
  | stores (p : Nat) (hp : p ≤ s₀.params.ptrMax) (dst : Param) (d : Nat) (r : Int) (hdst : i.outputParam = some dst)
      (hd : s.resolveOut i.opcode dst = .ok d) (hr : MayStore s i r) (hacc : s₀.Accessible d) :
      ExecEnd s i s₀ ((s₀.store d r).withPc p)
  | pushes (p : Nat) (hp : p ≤ s₀.params.ptrMax) (v : Param) (x : Int) (hi : i = .out v)
      (hx : s.resolveIn v = .ok x) : ExecEnd s i s₀ ((s₀.push x).withPc p)
  | setsRb (p : Nat) (hp : p ≤ s₀.params.ptrMax) (v : Param) (x y : Int) (hi : i = .arb v)
      (hx : s.resolveIn v = .ok x) (hy : toCell s.params (s.rb + x) = .ok y) :
      ExecEnd s i s₀ ((s₀.withRb y).withPc p)

/-- The error of a commit is one that every instruction may raise. -/
theorem mayRaise_of_advance {s : State} {action : CommitAction} {next : Int} {which : PtrUse} {e : Err} (i : Instr)
    (h : s.advance action next which = .error e) : MayRaise i e := by
  rintro op rfl
  rcases State.advance_error h with ⟨-, h⟩ | ⟨-, d, v, -, -, h⟩ <;> cases h

/-- An effect the instruction can have is committed in one of these ways. -/
theorem State.finish_ends {s s₀ : State} {i : Instr} {r : Except Err Effect} (h : MayAnswer s i r) :
    ExecEnd s i s₀ (s₀.finish r) := by
  rcases s₀.finish_cases r with ⟨e, he, rfl | ⟨action, next, which, rfl, hadv⟩⟩ | ⟨rfl, he⟩ | ⟨rfl, he⟩ |
    ⟨action, next, which, p, s', rfl, hp, hact, he⟩ <;> rw [he]
  · exact .faulted e h
  · exact .faulted e (mayRaise_of_advance i hadv)
  · obtain ⟨dst, hi, ha⟩ := h
    exact .waits dst hi ha
  · exact .halts h
  · have hmax := (toPtr_ok hp).2.2
    cases action with
    | nothing =>
      obtain ⟨cond, target, hi⟩ := h
      cases hact
      exact .moves p hmax cond target hi
    | memWrite d v =>
      obtain ⟨⟨dst, hdst, hd⟩, hr⟩ := h
      obtain ⟨hacc, rfl⟩ := State.memWrite_ok hact
      exact .stores p hmax dst d v hdst hd hr hacc
    | outputPush v =>
      obtain ⟨q, hi, hx⟩ := h
      cases hact
      exact .pushes p hmax q v hi hx
    | setRb y =>
      obtain ⟨v, x, hi, hx, hy⟩ := h
      cases hact
      exact .setsRb p hmax v x y hi hx hy

/-- Everything an instruction can do. -/
theorem exec_ends {i : Instr} {s t : State} (h : exec i s = .next t) :
    ∃ s₀, (s₀ = s ∨ ((∃ dst, i = .inp dst) ∧ s₀ = s.pull)) ∧ ExecEnd s i s₀ t := by
  obtain ⟨s₀, r, hexec, hs₀, hans⟩ := exec_eq_finish i s
  obtain rfl := Host.Outcome.next.inj (hexec.symm.trans h)
  exact ⟨s₀, hs₀, State.finish_ends hans⟩

/-- An instruction that is no Input commits on the state it was decoded on. -/
theorem exec_ends_of_not_inp {i : Instr} {s t : State} (hi : ∀ dst, i ≠ .inp dst) (h : exec i s = .next t) :
    ExecEnd s i s t := by
  obtain ⟨s₀, rfl | ⟨⟨dst, rfl⟩, -⟩, hend⟩ := exec_ends h
  · exact hend
  · exact absurd rfl (hi dst)

/-- Every step answers a next state. -/
theorem step_next (s : State) : ∃ t, step s = .next t := by
  have hcycle : ∀ u : State, ∃ t, u.cycle = .next t := by
    intro u
    cases hf : u.fetchDecode with
    | error e => exact ⟨_, State.cycle_of_error hf⟩
    | ok i =>
      obtain ⟨s₀, r, h, -⟩ := exec_eq_finish i u
      exact ⟨_, (State.cycle_of_ok hf).trans h⟩
  cases h : s.status with
  | running => exact step_running h ▸ hcycle s
  | waitingOnInput => exact step_waiting h ▸ hcycle _
  | halted => exact ⟨s, step_halted h⟩
  | faulted => exact ⟨s, step_faulted h⟩

/-- Everything a step of an active CORE can do: take an error of the fetch, or end as the fetched instruction can. -/
theorem step_active_cases {s t : State} (hact : s.Active) (h : step s = .next t) :
    (∃ e, s.fetchDecode = .error e ∧ t = s.faultEntry e) ∨
    (∃ i s₀, s.fetchDecode = .ok i ∧
      (s₀ = s.withStatus .running ∨ ((∃ dst, i = .inp dst) ∧ s₀ = (s.withStatus .running).pull)) ∧
      ExecEnd (s.withStatus .running) i s₀ t) := by
  rw [step_active hact] at h
  cases hf : s.fetchDecode with
  | error e =>
    rw [State.cycle_of_error (by rwa [State.withStatus_fetchDecode])] at h
    exact .inl ⟨e, rfl, (Host.Outcome.next.inj h).symm⟩
  | ok i =>
    rw [State.cycle_of_ok (by rwa [State.withStatus_fetchDecode])] at h
    obtain ⟨s₀, hs₀, hend⟩ := exec_ends h
    exact .inr ⟨i, s₀, rfl, hs₀, hend⟩

/-- A CORE is active, or its step answers the same state. -/
theorem step_active_or_same {s t : State} (h : step s = .next t) :
    s.Active ∨ ((s.status = .halted ∨ s.status = .faulted) ∧ t = s) := by
  cases hs : s.status with
  | running => exact .inl (.inl hs)
  | waitingOnInput => exact .inl (.inr hs)
  | halted => exact .inr ⟨.inl rfl, (Host.Outcome.next.inj ((step_halted hs).symm.trans h)).symm⟩
  | faulted => exact .inr ⟨.inr rfl, (Host.Outcome.next.inj ((step_faulted hs).symm.trans h)).symm⟩

/-! ### What every end leaves unchanged -/

section
variable {s s₀ t : State} {i : Instr}

theorem ExecEnd.configuration (h : ExecEnd s i s₀ t) :
    t.extEn = s₀.extEn ∧ t.params = s₀.params ∧ t.base.length = s₀.base.length := by
  cases h with
  | stores => exact ⟨rfl, rfl, s₀.store_imageLength _ _⟩
  | faulted | waits | halts | moves | pushes | setsRb => exact ⟨rfl, rfl, rfl⟩

theorem ExecEnd.source (h : ExecEnd s i s₀ t) : t.source = s₀.source := by
  cases h <;> rfl

/-- Only AdjustRelativeBase changes rb. -/
theorem ExecEnd.rb (h : ExecEnd s i s₀ t) : t.rb = s₀.rb ∨ ∃ v, i = .arb v := by
  cases h with
  | setsRb p hp v x y hi => exact .inr ⟨v, hi⟩
  | faulted | waits | halts | moves | stores | pushes => exact .inl rfl

/-- Only Output pushes, and it pushes its operand. -/
theorem ExecEnd.sink (h : ExecEnd s i s₀ t) :
    t.sink = s₀.sink ∨ ∃ v x, i = .out v ∧ s.resolveIn v = .ok x ∧ t.sink = s₀.sink ++ [x] := by
  cases h with
  | pushes p hp v x hi hx => exact .inr ⟨v, x, hi, hx, rfl⟩
  | faulted | waits | halts | moves | stores | setsRb => exact .inl rfl

/-- Memory is unchanged, or a store at the resolved output address has been committed. -/
theorem ExecEnd.memory (h : ExecEnd s i s₀ t) :
    (t.base = s₀.base ∧ t.ext = s₀.ext) ∨ ∃ dst d r p, i.outputParam = some dst ∧
      s.resolveOut i.opcode dst = .ok d ∧ t = (s₀.store d r).withPc p := by
  cases h with
  | stores p hp dst d r hdst hd => exact .inr ⟨dst, d, r, p, hdst, hd, rfl⟩
  | faulted | waits | halts | moves | pushes | setsRb => exact .inl ⟨rfl, rfl⟩

/-- The same of reads: another address than the resolved output address reads as before. -/
theorem ExecEnd.memRead {x : Nat} (h : ExecEnd s i s₀ t)
    (hx : ∀ dst, i.outputParam = some dst → s.resolveOut i.opcode dst ≠ .ok x) : t.memRead x = s₀.memRead x := by
  rcases h.memory with ⟨hbase, hext⟩ | ⟨dst, d, r, p, hdst, hd, rfl⟩
  · exact congrFun (State.memRead_congr hbase hext h.configuration.1) x
  · exact s₀.memRead_store_other r fun hxd => hx dst hdst (hxd ▸ hd)

/-- STATUS and ERR: as before, a wait, a Halt, or fault entry. -/
theorem ExecEnd.status (h : ExecEnd s i s₀ t) :
    (t.status = s₀.status ∧ t.err = s₀.err) ∨ (∃ e, MayRaise i e ∧ t = s₀.faultEntry e) ∨
    ((∃ dst, i = .inp dst) ∧ s.answer = none ∧ t = s₀.withStatus .waitingOnInput) ∨
    (i = .hlt ∧ t = s₀.withStatus .halted) := by
  cases h with
  | faulted e he => exact .inr (.inl ⟨e, he, rfl⟩)
  | waits dst hi ha => exact .inr (.inr (.inl ⟨⟨dst, hi⟩, ha, rfl⟩))
  | halts hi => exact .inr (.inr (.inr ⟨hi, rfl⟩))
  | moves | stores | pushes | setsRb => exact .inl ⟨rfl, rfl⟩

end

end Sys2Proof.Machine
end

section
/-! PROOFS. The frames of the instructions (40_execution.md section 1). -/

namespace Sys2Proof.Machine

/-- Settles O33. -/
theorem aluInstructionsFrame : Obligations.AluInstructionsFrame := by
  intro s t a b dst i hi h
  have hdst := outputParam_of_mem_aluInstr hi
  have hkind : (∀ q, i ≠ .inp q) ∧ (∀ v, i ≠ .arb v) ∧ (∀ v, i ≠ .out v) ∧ i ≠ .hlt := by
    rcases mem_aluInstr.1 hi with rfl | rfl | rfl | rfl <;> exact ⟨nofun, nofun, nofun, nofun⟩
  obtain ⟨hinp, harb, hout, hhlt⟩ := hkind
  have hend := exec_ends_of_not_inp hinp h
  obtain ⟨hen, hparams, hlen⟩ := hend.configuration
  have hother : ∀ x, s.resolveOut i.opcode dst ≠ .ok x → t.memRead x = s.memRead x := fun x hx =>
    hend.memRead fun q hq => by
      obtain rfl := Option.some.inj (hdst.symm.trans hq)
      exact hx
  refine ⟨⟨?rb, hen, hparams, hlen, hend.source, ?sink⟩, fun d hd x hx => ?_, fun hd => ?_, ?status⟩
  case rb => exact hend.rb.resolve_right fun ⟨v, hv⟩ => harb v hv
  case sink => exact hend.sink.resolve_right fun ⟨v, _, hv, _⟩ => hout v hv
  · exact hother x fun h' => hx (Except.ok.inj (h'.symm.trans hd))
  · exact funext fun x => hother x (hd x)
  case status =>
    rcases hend.status with hsame | ⟨e, -, hf⟩ | ⟨⟨q, hq⟩, -⟩ | ⟨hq, -⟩
    · exact .inl hsame
    · exact .inr ⟨e, hf⟩
    · exact absurd hq (hinp q)
    · exact absurd hq hhlt

/-- Settles O35: these instructions have no output parameter, so nothing is stored. -/
theorem nonStoringInstructionsFrame : Obligations.NonStoringInstructionsFrame := by
  intro s t u w i hi h
  have hkind : (∀ q, i ≠ .inp q) ∧ i.outputParam = none ∧ (∀ v, i = .out v → v = u) ∧
      ∀ v, i = .arb v → v = u := by
    simp only [List.mem_cons, List.not_mem_nil, or_false] at hi
    rcases hi with rfl | rfl | rfl | rfl | rfl <;> simp [Instr.outputParam, eq_comm]
  obtain ⟨hinp, hnone, hout, harb⟩ := hkind
  have hend := exec_ends_of_not_inp hinp h
  obtain ⟨hen, hparams, -⟩ := hend.configuration
  obtain ⟨hbase, hext⟩ := hend.memory.resolve_right fun ⟨dst, _, _, _, hdst, _⟩ => by simp [hnone] at hdst
  refine ⟨⟨hbase, hext, hen, hparams, hend.source⟩, fun x => congrFun (State.memRead_congr hbase hext hen) x,
    fun hne => ?sink, fun hne => ?rb, ?status⟩
  case sink => exact hend.sink.resolve_right fun ⟨v, _, hv, _⟩ => hne (hout v hv ▸ hv)
  case rb => exact hend.rb.resolve_right fun ⟨v, hv⟩ => hne (harb v hv ▸ hv)
  case status =>
    rcases hend.status with hsame | ⟨e, -, hf⟩ | ⟨⟨q, hq⟩, -⟩ | ⟨hq, rfl⟩
    · exact .inl hsame
    · exact .inr (.inr ⟨e, hf⟩)
    · exact absurd hq (hinp q)
    · exact .inr (.inl ⟨hq, rfl, rfl⟩)

/-- The commit of a store with the normal advance: fault entry, or the store and the new pc. -/
theorem State.finish_memWrite_cases (s : State) (d : Nat) (v next : Int) (which : PtrUse) :
    (∃ e, s.finish (.ok (.go (.memWrite d v) next which)) = s.faultEntry e) ∨
    ∃ p, s.finish (.ok (.go (.memWrite d v) next which)) = (s.store d v).withPc p := by
  rcases s.finish_cases (.ok (.go (.memWrite d v) next which)) with ⟨e, he, -⟩ | ⟨h, -⟩ | ⟨h, -⟩ |
    ⟨action, next', which', p, s', heff, -, hact, he⟩
  · exact .inl ⟨e, he⟩
  · cases h
  · cases h
  · cases heff
    obtain ⟨-, rfl⟩ := State.memWrite_ok hact
    exact .inr ⟨p, he⟩

/-- Settles O34: the address does not resolve, no value is pulled, the commit faults, or the value is stored. -/
theorem inputFrame : Obligations.InputFrame := by
  intro s t dst h
  cases hd : s.resolveOut .inp dst with
  | error e =>
    obtain rfl := Host.Outcome.next.inj ((exec_inp_error hd).symm.trans h)
    exact ⟨⟨rfl, rfl, rfl, rfl, rfl⟩, nofun, fun _ => ⟨rfl, rfl⟩, fun _ => ⟨rfl, rfl⟩, .inr (.inr ⟨e, rfl⟩)⟩
  | ok d =>
    cases ha : s.answer with
    | none =>
      obtain rfl := Host.Outcome.next.inj ((exec_inp_wait hd ha).symm.trans h)
      exact ⟨⟨rfl, rfl, rfl, rfl, rfl⟩, fun _ _ => ⟨rfl, fun _ _ => rfl⟩, fun hno => absurd rfl (hno d),
        fun _ => ⟨rfl, rfl⟩, .inr (.inl ⟨rfl, rfl, rfl⟩)⟩
    | some v =>
      obtain rfl := Host.Outcome.next.inj ((exec_inp_value hd ha).symm.trans h)
      rcases s.pull.finish_memWrite_cases d v (s.pull.nextPc .inp) .pc with ⟨e, he⟩ | ⟨p, he⟩ <;> rw [he]
      · exact ⟨⟨rfl, rfl, rfl, rfl, rfl⟩, fun _ _ => ⟨rfl, fun _ _ => rfl⟩, fun hno => absurd rfl (hno d), nofun,
          .inr (.inr ⟨e, rfl⟩)⟩
      · refine ⟨⟨rfl, rfl, rfl, s.store_imageLength d v, rfl⟩, fun d' hd' => ⟨rfl, fun x hx => ?_⟩,
          fun hno => absurd rfl (hno d), nofun, .inl ⟨rfl, rfl⟩⟩
        obtain rfl := Except.ok.inj hd'
        exact s.pull.memRead_store_other v hx

end Sys2Proof.Machine
end

section
/-! PROOFS. Rules over every step (10_state.md, 20_memory.md section 3, 42_io.md section 3, 60_exceptions.md
section 2). -/

namespace Sys2Proof.Machine

/-- R90: the fetch answers no instruction with an Immediate output parameter. -/
theorem State.fetchDecode_output_not_immediate {s : State} {i : Instr} {q : Param} (h : s.fetchDecode = .ok i)
    (hq : i.outputParam = some q) : q.mode ≠ .immediate := by
  obtain ⟨c, -, hhead, -⟩ := State.fetchDecode_ok h
  exact decode_output_not_immediate (decode_of_head [] hhead) hq

/-! ### No fetch raises EffectMismatch -/

theorem State.memRead_error {s : State} {a : Nat} {e : Err} (h : s.memRead a = .error e) :
    e = .readMemoryOutOfBounds a := by
  by_cases ha : a < s.imageLength
  · rw [State.memRead_base ha] at h
    cases h
  · cases hen : s.extEn with
    | true =>
      rw [State.memRead_ext (Nat.not_lt.1 ha) hen] at h
      cases h
    | false =>
      rw [State.memRead_outOfBounds (Nat.not_lt.1 ha) hen] at h
      exact (Except.error.inj h).symm

theorem toPtr_error {p : Params} {what : PtrUse} {v : Int} {e : Err} (h : toPtr p what v = .error e) :
    e = .memoryCellIsInvalidPointer what v := by
  by_cases hv : p.IsPtr v
  · rw [toPtr_of_isPtr what hv] at h
    cases h
  · rw [toPtr_of_not_isPtr what hv] at h
    exact (Except.error.inj h).symm

theorem decodeHead_ne_effectMismatch (c : Int) (op : Opcode) : decodeHead c ≠ .error (.effectMismatch op) := by
  intro h
  rcases decodeHead_error h with ⟨he, -⟩ | ⟨j, ⟨d, he⟩ | he⟩ <;> cases he

theorem State.fetchParams_ne_effectMismatch (s : State) (op : Opcode) (i : Nat) (ms : List Mode) :
    s.fetchParams i ms ≠ .error (.effectMismatch op) := by
  induction ms generalizing i with
  | nil => nofun
  | cons m ms ih =>
    intro h
    rcases bind_eq_error h with h | ⟨a, -, h⟩
    · cases toPtr_error h
    · rcases bind_eq_error h with h | ⟨r, -, h⟩
      · cases State.memRead_error h
      · rcases bind_eq_error h with h | ⟨ps, -, h⟩
        · exact ih (i + 1) h
        · cases h

/-- A parameter list as long as the opcode's makes an instruction. -/
theorem assembleInstr_of_length {o : Opcode} {ps : List Param} (h : ps.length = o.kinds.length) :
    ∃ i, assembleInstr o ps = .ok i := by
  cases o with
  | add | mul | lt | eq =>
    match ps, h with
    | [_, _, _], _ => exact ⟨_, rfl⟩
  | jt | jf =>
    match ps, h with
    | [_, _], _ => exact ⟨_, rfl⟩
  | inp | out | arb =>
    match ps, h with
    | [_], _ => exact ⟨_, rfl⟩
  | hlt =>
    obtain rfl := List.eq_nil_of_length_eq_zero h
    exact ⟨_, rfl⟩

/-- Log 11: the fetch reads one parameter per mode, so the decoder's own check never fires. -/
theorem State.fetchDecode_ne_effectMismatch (s : State) (op : Opcode) :
    s.fetchDecode ≠ .error (.effectMismatch op) := by
  intro h
  rcases bind_eq_error h with h | ⟨c, -, h⟩
  · cases State.memRead_error h
  · rcases bind_eq_error h with h | ⟨hd, hhead, h⟩
    · exact decodeHead_ne_effectMismatch c op h
    · rcases bind_eq_error h with h | ⟨ps, hps, h⟩
      · exact s.fetchParams_ne_effectMismatch op 1 hd.modes h
      · have hlen : ps.length = hd.opcode.kinds.length := by
          rw [← decodeHead_modes_length hhead, ← (State.fetchParams_ok hps).1, List.length_map]
        obtain ⟨i, hi⟩ := assembleInstr_of_length hlen
        rw [hi] at h
        cases h

/-! ### Steps that end in an error -/

/-- A step of an active CORE that ends in Faulted is fault entry, for an error of the fetch or of the instruction it
ran; what it stands on is the state before, or that state after the pull of an Input. -/
theorem step_faulted_cases {s t : State} (hact : s.Active) (h : step s = .next t) (ht : t.status = .faulted) :
    ∃ e, (s.fetchDecode = .error e ∨ ∃ i, s.fetchDecode = .ok i ∧ MayRaise i e) ∧
      (t = s.faultEntry e ∨ (t = s.pull.faultEntry e ∧ ∃ dst, s.fetchDecode = .ok (.inp dst))) := by
  rcases step_active_cases hact h with ⟨e, hf, rfl⟩ | ⟨i, s₀, hf, hs₀, hend⟩
  · exact ⟨e, .inl hf, .inl rfl⟩
  · rcases hend.status with ⟨hsame, -⟩ | ⟨e, he, rfl⟩ | ⟨-, -, rfl⟩ | ⟨-, rfl⟩
    · rcases hs₀ with rfl | ⟨-, rfl⟩ <;> cases hsame.symm.trans ht
    · rcases hs₀ with rfl | ⟨⟨dst, rfl⟩, rfl⟩
      · exact ⟨e, .inr ⟨i, hf, he⟩, .inl rfl⟩
      · exact ⟨e, .inr ⟨_, hf, he⟩, .inr ⟨rfl, dst, hf⟩⟩
    · cases ht
    · cases ht

/-- Settles O32: neither the fetch nor an instruction it answers raises EffectMismatch. -/
theorem effectMismatchIsOnlyASelfCheck : Obligations.EffectMismatchIsOnlyASelfCheck := by
  refine ⟨fun s t op hact h ht herr => ?_, fun _ _ => rfl, fun _ => rfl⟩
  obtain ⟨e, hraise, ht'⟩ := step_faulted_cases hact h ht
  have he : e = .effectMismatch op := by
    rcases ht' with rfl | ⟨rfl, -⟩ <;> exact congrArg ErrRecord.err (Option.some.inj herr)
  subst he
  rcases hraise with hf | ⟨i, hf, hmay⟩
  · exact s.fetchDecode_ne_effectMismatch op hf
  · obtain ⟨q, hq, himm⟩ := hmay op rfl
    exact State.fetchDecode_output_not_immediate hf hq himm

/-- Settles O47. -/
theorem faultingStepCommitsNothing : Obligations.FaultingStepCommitsNothing := by
  intro s t hact h ht
  obtain ⟨e, -, rfl | ⟨rfl, hinp⟩⟩ := step_faulted_cases hact h ht
  · exact ⟨rfl, rfl, rfl, rfl, rfl, rfl, rfl, ⟨e, rfl⟩, .inl rfl⟩
  · exact ⟨rfl, rfl, rfl, rfl, rfl, rfl, rfl, ⟨e, rfl⟩, .inr ⟨rfl, hinp⟩⟩

/-! ### What a step changes -/

/-- Settles O48. -/
theorem stepKeepsConfigurationAndBase : Obligations.StepKeepsConfigurationAndBase := by
  intro s t h
  rcases step_active_or_same h with hact | ⟨-, rfl⟩
  · rcases step_active_cases hact h with ⟨e, -, rfl⟩ | ⟨i, s₀, hf, hs₀, hend⟩
    · exact ⟨rfl, rfl, rfl, fun hne => absurd rfl hne⟩
    · obtain ⟨hen, hparams, hlen⟩ := hend.configuration
      have hrb : t.rb ≠ s₀.rb → ∃ v, s.fetchDecode = .ok (.arb v) := fun hne => by
        obtain ⟨v, rfl⟩ := hend.rb.resolve_left hne
        exact ⟨v, hf⟩
      rcases hs₀ with rfl | ⟨-, rfl⟩ <;> exact ⟨hlen, hen, hparams, hrb⟩
  · exact ⟨rfl, rfl, rfl, fun hne => absurd rfl hne⟩

/-- Settles O49. -/
theorem memoryChangesOnlyAtTheOutputAddress : Obligations.MemoryChangesOnlyAtTheOutputAddress := by
  intro s t x h hne
  rcases step_active_or_same h with hact | ⟨-, rfl⟩
  · rcases step_active_cases hact h with ⟨e, -, rfl⟩ | ⟨i, s₀, hf, hs₀, hend⟩
    · exact absurd rfl hne
    · have hread : s₀.memRead = s.memRead := by
        rcases hs₀ with rfl | ⟨-, rfl⟩ <;> rfl
      refine Classical.byContradiction fun hno => hne
        ((hend.memRead fun dst hdst hd => hno ⟨i, dst, hf, hdst, ?_⟩).trans (congrFun hread x))
      rwa [State.withStatus_resolveOut] at hd
  · exact absurd rfl hne

/-- Settles O50. -/
theorem onlyOutputPushesAndOnlyInputPulls : Obligations.OnlyOutputPushesAndOnlyInputPulls := by
  intro s t h
  rcases step_active_or_same h with hact | ⟨-, rfl⟩
  · rcases step_active_cases hact h with ⟨e, -, rfl⟩ | ⟨i, s₀, hf, hs₀, hend⟩
    · exact ⟨fun hne => absurd rfl hne, fun hne => absurd rfl hne⟩
    · have hsink₀ : s₀.sink = s.sink := by
        rcases hs₀ with rfl | ⟨-, rfl⟩ <;> rfl
      refine ⟨fun hne => ?_, fun hne => ?_⟩
      · obtain ⟨v, x, rfl, hx, hsink⟩ := hend.sink.resolve_left (hsink₀ ▸ hne)
        exact ⟨v, x, hf, by rwa [State.withStatus_resolveIn] at hx, hsink₀ ▸ hsink⟩
      · rcases hs₀ with rfl | ⟨⟨dst, rfl⟩, rfl⟩
        · exact absurd hend.source hne
        · exact ⟨dst, hf, hend.source⟩
  · exact ⟨fun hne => absurd rfl hne, fun hne => absurd rfl hne⟩

/-- Settles O51. -/
theorem onlyHaltEntersHaltedAndTerminalStatesStay : Obligations.OnlyHaltEntersHaltedAndTerminalStatesStay := by
  intro s t h
  refine ⟨?stay, fun hne ht => ?enter⟩
  case stay =>
    rintro (hs | hs)
    · exact (Host.Outcome.next.inj ((step_halted hs).symm.trans h)).symm
    · exact (Host.Outcome.next.inj ((step_faulted hs).symm.trans h)).symm
  case enter =>
    rcases step_active_or_same h with hact | ⟨-, rfl⟩
    · rcases step_active_cases hact h with ⟨e, -, rfl⟩ | ⟨i, s₀, hf, hs₀, hend⟩
      · cases ht
      · rcases hend.status with ⟨hsame, -⟩ | ⟨e, -, rfl⟩ | ⟨-, -, rfl⟩ | ⟨rfl, rfl⟩
        · rcases hs₀ with rfl | ⟨-, rfl⟩ <;> cases hsame.symm.trans ht
        · cases ht
        · cases ht
        · rcases hs₀ with rfl | ⟨⟨dst, hdst⟩, -⟩
          · exact ⟨hf, rfl⟩
          · cases hdst
    · exact absurd ht hne

end Sys2Proof.Machine
end

section
/-! PROOFS. The machine's invariant, kept by every operation and so by every step. -/

namespace Sys2Proof.Machine

/-! ### Values that are cells -/

/-- Truth values, and what an unlisted address reads as, are cells. -/
theorem isCell_zero_one {p : Params} (h : p.Legal) : p.IsCell 0 ∧ p.IsCell 1 := by
  have hhalf : 2 ^ 1 ≤ p.cellHalf := Nat.pow_le_pow_right (by decide) (by rw [Params.Legal] at h; omega)
  rw [isCell_iff, isCell_iff]
  omega

theorem Memory.mem_of_lookup {m : Memory} {a : Nat} {v : Int} (h : Memory.lookup m a = some v) : (a, v) ∈ m := by
  induction m with
  | nil => cases h
  | cons e m ih =>
    obtain ⟨k, w⟩ := e
    unfold Memory.lookup at h
    split at h
    · subst a
      obtain rfl := Option.some.inj h
      exact List.mem_cons_self
    · exact List.mem_cons_of_mem _ (ih h)

section
variable {s : State} (hinv : s.Inv)
include hinv

theorem State.Inv.memRead_isCell {a : Nat} {v : Int} (h : s.memRead a = .ok v) : s.params.IsCell v := by
  by_cases ha : a < s.imageLength
  · rw [State.memRead_base ha] at h
    exact hinv.baseCells v (Except.ok.inj h ▸ List.getElem_mem ha)
  · cases hen : s.extEn with
    | false =>
      rw [State.memRead_outOfBounds (Nat.not_lt.1 ha) hen] at h
      cases h
    | true =>
      rw [State.memRead_ext (Nat.not_lt.1 ha) hen] at h
      obtain rfl := Except.ok.inj h
      cases hl : s.ext.lookup a with
      | none => exact (isCell_zero_one hinv.paramsLegal).1
      | some w => exact hinv.extCells _ (Memory.mem_of_lookup hl)

theorem State.Inv.resolveIn_isCell {q : Param} {v : Int} (hq : s.params.IsCell q.raw) (h : s.resolveIn q = .ok v) :
    s.params.IsCell v := by
  rcases State.resolveIn_ok h with rfl | ⟨r, a, -, -, hread⟩ | ⟨r, a, -, -, hread⟩
  · exact hq
  · exact hinv.memRead_isCell hread
  · exact hinv.memRead_isCell hread

/-- The raw cells of a fetched instruction come from memory. -/
theorem State.Inv.fetchDecode_raw_isCell {i : Instr} {q : Param} (h : s.fetchDecode = .ok i) (hq : q ∈ i.operands) :
    s.params.IsCell q.raw := by
  obtain ⟨c, -, -, hreads⟩ := State.fetchDecode_ok h
  obtain ⟨k, hk, rfl⟩ := List.getElem_of_mem hq
  exact hinv.memRead_isCell (hreads k hk)

theorem State.Inv.mayStore_isCell {i : Instr} {r : Int} (h : MayStore s i r) : s.params.IsCell r := by
  obtain ⟨h0, h1⟩ := isCell_zero_one hinv.paramsLegal
  rcases h with ⟨x, hx⟩ | rfl | rfl | ⟨-, ha⟩
  · exact toCell_isCell hx
  · exact h0
  · exact h1
  · exact InputSource.answer_isCell hinv.sourceCells ha

/-! ### The operations -/

theorem State.Inv.err_eq_none (hs : s.status ≠ .faulted) : s.err = none := by
  simpa using mt hinv.errIffFaulted.1 hs

theorem State.Inv.withStatus {st : Status} (hs : s.status ≠ .faulted) (hst : st ≠ .faulted) :
    (s.withStatus st).Inv :=
  { hinv with errIffFaulted := by simp [hinv.err_eq_none hs, hst] }

theorem State.Inv.withPc {p : Nat} (hs : s.status ≠ .faulted) (hp : p ≤ s.params.ptrMax) : (s.withPc p).Inv :=
  { hinv with
    pcPointer := hp
    errPc := by simp [hinv.err_eq_none hs] }

theorem State.Inv.withRb {v : Int} (hv : s.params.IsCell v) : (s.withRb v).Inv :=
  { hinv with rbCell := hv }

theorem State.Inv.pull : s.pull.Inv :=
  { hinv with sourceCells := InputSource.pulled_cells hinv.sourceCells }

theorem State.Inv.push {v : Int} (hv : s.params.IsCell v) : (s.push v).Inv :=
  { hinv with
    sinkCells := fun w hw => by
      rcases List.mem_append.1 hw with hw | hw
      · exact hinv.sinkCells w hw
      · exact List.mem_singleton.1 hw ▸ hv }

theorem State.Inv.faultEntry (e : Err) : (s.faultEntry e).Inv :=
  { hinv with
    errIffFaulted := by simp
    errPc := fun r hr => by rw [← Option.some.inj hr]; rfl }

/-- A store at a pointer: BASE keeps its length, and EXT gets an entry only from N up and only when enabled. -/
theorem State.Inv.store {a : Nat} {v : Int} (ha : a ≤ s.params.ptrMax) (hacc : s.Accessible a)
    (hv : s.params.IsCell v) : (s.store a v).Inv :=
  { hinv with
    baseCells := fun w hw => by
      rcases List.mem_or_eq_of_mem_set hw with hw | rfl
      · exact hinv.baseCells w hw
      · exact hv
    extSorted := State.store_wf hinv.extSorted a v
    extAddrs := fun e he => by
      rw [State.store_ext] at he
      rw [State.store_imageLength]
      split at he
      · exact hinv.extAddrs e he
      · rcases Memory.mem_insert he with rfl | he
        · exact ⟨Nat.not_lt.1 ‹_›, ha⟩
        · exact hinv.extAddrs e he
    extCells := fun e he => by
      rw [State.store_ext] at he
      split at he
      · exact hinv.extCells e he
      · rcases Memory.mem_insert he with rfl | he
        · exact hv
        · exact hinv.extCells e he
    extOnlyEnabled := fun hen => by
      have hbase : a < s.imageLength := hacc.resolve_right (by simp_all)
      rw [(State.store_base_region v hbase).2]
      exact hinv.extOnlyEnabled hen }

end

/-! ### Instructions and steps -/

/-- Every end of an instruction whose raw cells are cells keeps the invariant. -/
theorem ExecEnd.inv {s s₀ t : State} {i : Instr} (h : ExecEnd s i s₀ t) (hinv : s.Inv) (hs : s.status ≠ .faulted)
    (hs₀ : s₀ = s ∨ s₀ = s.pull) (hraw : ∀ q ∈ i.operands, s.params.IsCell q.raw) : t.Inv := by
  obtain ⟨hinv₀, hstatus₀, hparams₀⟩ : s₀.Inv ∧ s₀.status ≠ .faulted ∧ s₀.params = s.params := by
    rcases hs₀ with rfl | rfl
    · exact ⟨hinv, hs, rfl⟩
    · exact ⟨hinv.pull, hs, rfl⟩
  cases h with
  | faulted e he => exact hinv₀.faultEntry e
  | waits dst hi ha => exact hinv₀.withStatus hstatus₀ nofun
  | halts hi => exact hinv₀.withStatus hstatus₀ nofun
  | moves p hp cond target hi => exact hinv₀.withPc hstatus₀ hp
  | stores p hp dst d r hdst hd hr hacc =>
    have hdmax : d ≤ s₀.params.ptrMax := hparams₀ ▸ (State.resolveOut_ok hd).1
    have hcell : s₀.params.IsCell r := hparams₀ ▸ hinv.mayStore_isCell hr
    exact (hinv₀.store hdmax hacc hcell).withPc hstatus₀ hp
  | pushes p hp v x hi hx =>
    subst hi
    have hcell : s₀.params.IsCell x := hparams₀ ▸ hinv.resolveIn_isCell (hraw v List.mem_cons_self) hx
    exact (hinv₀.push hcell).withPc hstatus₀ hp
  | setsRb p hp v x y hi hx hy => exact (hinv₀.withRb (hparams₀ ▸ toCell_isCell hy)).withPc hstatus₀ hp

theorem State.Active.not_faulted {s : State} (h : s.Active) : s.status ≠ .faulted := by
  rcases h with h | h <;> simp [h]

/-- Settles O43. -/
theorem stepKeepsTheInvariant : Obligations.StepKeepsTheInvariant := by
  intro s t hinv h
  rcases step_active_or_same h with hact | ⟨-, rfl⟩
  · rcases step_active_cases hact h with ⟨e, -, rfl⟩ | ⟨i, s₀, hf, hs₀, hend⟩
    · exact hinv.faultEntry e
    · exact hend.inv (hinv.withStatus hact.not_faulted nofun) nofun (hs₀.imp_right And.right)
        fun q => hinv.fetchDecode_raw_isCell hf
  · exact hinv

/-! ### Construction -/

/-- A construction with an image and a source of cells meets the invariant. -/
theorem State.construct_inv {p : Params} {image : List Int} {source : InputSource} (hp : p.Legal)
    (himage : ∀ v ∈ image, p.IsCell v) (hsource : source.Cells p) : (State.construct p image source).Inv where
  paramsLegal := hp
  baseCells := himage
  extSorted := State.construct_wf p image source
  extAddrs := nofun
  extCells := nofun
  extOnlyEnabled := fun _ => rfl
  pcPointer := Nat.zero_le _
  rbCell := (isCell_zero_one hp).1
  errIffFaulted := ⟨nofun, nofun⟩
  errPc := nofun
  sourceCells := hsource
  sinkCells := nofun

/-- Settles O44. -/
theorem resetMeetsTheInvariant : Obligations.ResetMeetsTheInvariant :=
  State.construct_inv (by decide) nofun ⟨nofun, nofun⟩

/-- Settles O46. -/
theorem constructionLeavesTheResetValues : Obligations.ConstructionLeavesTheResetValues :=
  ⟨fun _ _ _ => ⟨rfl, rfl, rfl, rfl, rfl, rfl, rfl⟩, rfl⟩

end Sys2Proof.Machine
end

section
/-! PROOFS. The host's commands (40_execution.md sections 2 and 3). -/

namespace Sys2Proof.Machine

/-! ### `resume()` -/

theorem State.cycleResult_running {s : State} (h : s.status = .running) : s.cycleResult = none := by
  simp [State.cycleResult, h]

theorem State.cycleResult_waiting {s : State} (h : s.status = .waitingOnInput) :
    s.cycleResult = some .waitingOnInput := by
  simp [State.cycleResult, h]

theorem State.cycleResult_faulted {s : State} (h : s.status = .faulted) : s.cycleResult = some (.error s.err) := by
  simp [State.cycleResult, h]

/-- R125: a cycle that returns `Continue` is followed by the next one. -/
theorem State.resume_of_continue {s t : State} (hstep : step s = .next t) (h : t.cycleResult = none) (n : Nat) :
    s.resume (n + 1) = t.resume n := by
  simp [State.resume, hstep, h]

/-- What holds of a state and is kept by every step holds where `resume()` ends, and its result is that of the last
cycle. -/
theorem State.resume_induction {P : State → Prop} (hstep : ∀ s t, P s → step s = .next t → P t) {n : Nat}
    {s t : State} {r : ResumeResult} (hs : P s) (h : s.resume n = some (r, t)) : P t ∧ t.cycleResult = some r := by
  induction n generalizing s with
  | zero => cases h
  | succ n ih =>
    obtain ⟨u, hu⟩ := step_next s
    have hPu := hstep s u hs hu
    cases hr : u.cycleResult with
    | none => exact ih hPu (State.resume_of_continue hu hr n ▸ h)
    | some r' =>
      rw [State.resume_of_cycleResult hu hr n] at h
      cases h
      exact ⟨hPu, hr⟩

/-- Settles O53. -/
theorem resumeReturnsWhatStatusSays : Obligations.ResumeReturnsWhatStatusSays := by
  refine ⟨fun n s t r hinv h => ?result, fun s _ => ?cycles⟩
  case result =>
    obtain ⟨htinv, hres⟩ := State.resume_induction (P := State.Inv) stepKeepsTheInvariant hinv h
    cases ht : t.status with
    | running => cases (State.cycleResult_running ht).symm.trans hres
    | waitingOnInput =>
      exact .inl ⟨(Option.some.inj ((State.cycleResult_waiting ht).symm.trans hres)).symm, rfl⟩
    | halted => exact .inr (.inl ⟨(Option.some.inj ((State.cycleResult_halted ht).symm.trans hres)).symm, rfl⟩)
    | faulted =>
      obtain ⟨x, hx⟩ := Option.isSome_iff_exists.1 (htinv.errIffFaulted.2 ht)
      have hr := Option.some.inj ((State.cycleResult_faulted ht).symm.trans hres)
      exact .inr (.inr ⟨x, hx ▸ hr.symm, rfl, hx⟩)
  case cycles =>
    obtain ⟨t, ht⟩ := step_next s
    exact ⟨t, ht, fun n => ⟨fun h => State.resume_of_continue ht (State.cycleResult_running h) n,
      fun h => State.resume_of_cycleResult ht (State.cycleResult_waiting h) n,
      fun h => State.resume_of_cycleResult ht (State.cycleResult_halted h) n,
      fun h => State.resume_of_cycleResult ht (State.cycleResult_faulted h) n⟩⟩

/-- Settles O54, by induction on the bound within which the run ended. -/
theorem moreFuelNeverChangesAnEndedRun : Obligations.MoreFuelNeverChangesAnEndedRun := by
  intro n k
  induction n with
  | zero =>
    intro s x h
    cases h
  | succ n ih =>
    intro s x h
    obtain ⟨u, hu⟩ := step_next s
    rw [Nat.succ_add]
    cases hr : u.cycleResult with
    | none =>
      rw [State.resume_of_continue hu hr] at h ⊢
      exact ih u x h
    | some r =>
      rw [State.resume_of_cycleResult hu hr] at h ⊢
      exact h

/-- Settles O55. -/
theorem resumeOnFaultedReturnsTheSameError : Obligations.ResumeOnFaultedReturnsTheSameError :=
  fun _ n h => State.resume_of_cycleResult (step_faulted h) (State.cycleResult_faulted h) n

theorem State.runUntilHalt_of_resume {n : Nat} {s t : State} {r : ResumeResult} (h : s.resume n = some (r, t)) :
    s.runUntilHalt n = some (r.toRunResult, t) := by
  rw [State.runUntilHalt, h, Option.map_some]

/-- Settles O56. -/
theorem runUntilHaltIsOneResume : Obligations.RunUntilHaltIsOneResume :=
  fun _ _ _ => ⟨State.runUntilHalt_of_resume, State.runUntilHalt_of_resume, fun _ => State.runUntilHalt_of_resume⟩

/-! ### The other commands -/

/-- Settles O57. -/
theorem enablingTheExtensionTurnsFaultsIntoZeros : Obligations.EnablingTheExtensionTurnsFaultsIntoZeros := by
  intro s
  refine ⟨rfl, rfl, fun a ha => ?below, fun hinv hen a ha => ⟨State.memRead_outOfBounds ha hen, ?above⟩,
    fun hinv => { hinv with extOnlyEnabled := nofun }⟩
  case below => rw [State.memRead_base (s := s.enableExtraMemory) ha, State.memRead_base (s := s) ha]; rfl
  case above =>
    rw [State.memRead_ext (s := s.enableExtraMemory) ha rfl, State.enableExtraMemory_ext, hinv.extOnlyEnabled hen]
    rfl

/-- EXT_EN stays set through a run. -/
theorem State.resume_extEn {n : Nat} {s t : State} {r : ResumeResult} (hen : s.extEn = true)
    (h : s.resume n = some (r, t)) : t.extEn = true :=
  (State.resume_induction (P := fun u => u.extEn = true)
    (fun u v hu hstep => (stepKeepsConfigurationAndBase u v hstep).2.1.trans hu) hen h).1

/-- What a command that does not run the CORE leaves unchanged. -/
theorem State.hostCommand_frame {fuel : Nat} {s t : State} {c : HostCommand} {r : HostReply}
    (h : s.hostCommand fuel c = some (r, t)) (hresume : c ≠ .resume) (hrun : c ≠ .runUntilHalt) :
    t.base = s.base ∧ t.ext = s.ext ∧ t.pc = s.pc ∧ t.rb = s.rb ∧ t.status = s.status ∧ t.err = s.err ∧
      t.params = s.params ∧ (t.extEn = s.extEn ∨ c = .enableExtraMemory ∧ t.extEn = true) := by
  cases c with
  | resume => exact absurd rfl hresume
  | runUntilHalt => exact absurd rfl hrun
  | enableExtraMemory =>
    cases h
    exact ⟨rfl, rfl, rfl, rfl, rfl, rfl, rfl, .inr ⟨rfl, rfl⟩⟩
  | readMemory a =>
    simp only [State.hostCommand] at h
    split at h <;> cases h <;> exact ⟨rfl, rfl, rfl, rfl, rfl, rfl, rfl, .inl rfl⟩
  | enqueueInput | driveSource | drainOutput =>
    cases h
    exact ⟨rfl, rfl, rfl, rfl, rfl, rfl, rfl, .inl rfl⟩

/-- D14: no command clears EXT_EN. -/
theorem State.hostCommand_extEn {fuel : Nat} {s t : State} {c : HostCommand} {r : HostReply} (hen : s.extEn = true)
    (h : s.hostCommand fuel c = some (r, t)) : t.extEn = true := by
  by_cases hresume : c = .resume
  · subst hresume
    obtain ⟨⟨x, u⟩, hx, hr⟩ := Option.map_eq_some_iff.1 h
    cases hr
    exact State.resume_extEn hen hx
  by_cases hrun : c = .runUntilHalt
  · subst hrun
    obtain ⟨⟨x, u⟩, hx, hr⟩ := Option.map_eq_some_iff.1 h
    obtain ⟨⟨y, w⟩, hy, hr'⟩ := Option.map_eq_some_iff.1 hx
    cases hr
    cases hr'
    exact State.resume_extEn hen hy
  obtain ⟨-, -, -, -, -, -, -, hsame | ⟨-, hset⟩⟩ := State.hostCommand_frame h hresume hrun
  · exact hsame.trans hen
  · exact hset

/-- Settles O58. -/
theorem hostCommandsLeaveTheCoreAlone : Obligations.HostCommandsLeaveTheCoreAlone := by
  intro fuel s
  refine ⟨fun t c r h => ⟨fun hresume hrun => ?frame, fun hen => State.hostCommand_extEn hen h⟩,
    fun a => ⟨fun v hv => ?cell, fun e he => ?error⟩, rfl, fun _ => rfl, fun _ => rfl, rfl, fun x u hx => ?resumed,
    fun x u hx => ?ran⟩
  case frame =>
    obtain ⟨hbase, hext, hpc, hrb, hstatus, herr, hparams, hen⟩ := State.hostCommand_frame h hresume hrun
    exact ⟨hbase, hext, hpc, hrb, hstatus, herr, hparams, fun hne => (hen.resolve_left hne).1⟩
  case cell => simp only [State.hostCommand, State.readMemory, hv]
  case error => simp only [State.hostCommand, State.readMemory, he]
  case resumed => rw [State.hostCommand, hx, Option.map_some]
  case ran => rw [State.hostCommand, hx, Option.map_some]

end Sys2Proof.Machine
end

section
/-! PROOFS. The program text (30_encoding.md section 9). -/

namespace Sys2Proof.Machine

/-! ### Items -/

/-- Characters that are no comma stay in front of the first item of what follows. -/
theorem splitItems_append {item first : List Char} {cs : List Char} {others : List (List Char)} (h : ',' ∉ item)
    (hcs : splitItems cs = first :: others) : splitItems (item ++ cs) = (item ++ first) :: others := by
  induction item with
  | nil => exact hcs
  | cons c item ih =>
    obtain ⟨hc, hitem⟩ := not_or.1 (mt List.mem_cons.2 h)
    simp [splitItems, ih hitem, Ne.symm hc]

theorem splitItems_intercalate {items : List (List Char)} (hne : items ≠ []) (h : ∀ item ∈ items, ',' ∉ item) :
    splitItems ([','].intercalate items) = items := by
  induction items with
  | nil => exact absurd rfl hne
  | cons item items ih =>
    obtain ⟨hitem, hitems⟩ := List.forall_mem_cons.1 h
    cases items with
    | nil =>
      rw [List.intercalate_singleton]
      simpa using splitItems_append (cs := []) hitem rfl
    | cons next items =>
      have hrest : splitItems (',' :: [','].intercalate (next :: items)) = [] :: next :: items :=
        congrArg ([] :: ·) (ih (List.cons_ne_nil _ _) hitems)
      rw [List.intercalate_cons_cons, List.append_assoc]
      simpa using splitItems_append hitem hrest

theorem parseItems_eq_mapM (p : Params) (items : List (List Char)) : parseItems p items = items.mapM (parseItem p) := by
  induction items with
  | nil => rfl
  | cons item items ih =>
    rw [List.mapM_cons, ← ih, parseItems]
    cases parseItem p item <;> cases parseItems p items <;> rfl

/-- Settles O59: such a text is not all white space (there is a comma, or the item is not), so it is split at the
commas. -/
theorem imageTextIsReadItemByItem : Obligations.ImageTextIsReadItemByItem := by
  intro p
  refine ⟨fun items hcomma hitems => ?_, fun text h => if_pos h⟩
  have htext : ([','].intercalate items).all isImageSpace = false := by
    rcases hitems with hlen | ⟨item, rfl, hitem⟩
    · match items, hlen with
      | first :: second :: others, _ =>
        rw [List.intercalate_cons_cons]
        exact List.all_eq_false.2 ⟨',', by simp, by decide⟩
    · rwa [List.intercalate_singleton]
  have hne : items ≠ [] := by
    rintro rfl
    rcases hitems with hlen | ⟨item, hitem, -⟩
    · cases hlen
    · cases hitem
  rw [parseImage, htext, if_neg Bool.false_ne_true, splitItems_intercalate hne hcomma, parseItems_eq_mapM]

/-! ### Decimal digits -/

/-- One character of `0` to `9`. -/
abbrev IsDigit (c : Char) : Prop := '0' ≤ c ∧ c ≤ '9'

theorem isDigit_iff {c : Char} : IsDigit c ↔ 48 ≤ c.toNat ∧ c.toNat ≤ 57 := Iff.rfl

theorem digitValue_of_isDigit {c : Char} (h : IsDigit c) : digitValue c = some (c.toNat - 48) :=
  if_pos (isDigit_iff.1 h)

theorem isDigit_of_digitValue {c : Char} {d : Nat} (h : digitValue c = some d) : IsDigit c := by
  unfold digitValue at h
  split at h
  · exact isDigit_iff.2 ‹_›
  · cases h

/-- Digits read behind a value shift it up and add their own. -/
theorem parseDigits_of_isDigit {ds : List Char} (h : ∀ c ∈ ds, IsDigit c) (n : Nat) :
    parseDigits n ds = some (n * 10 ^ ds.length + decimalValue ds) := by
  induction ds generalizing n with
  | nil => simp [parseDigits, decimalValue]
  | cons c ds ih =>
    obtain ⟨hc, hds⟩ := List.forall_mem_cons.1 h
    have hvalue : (10 * n + (c.toNat - 48)) * 10 ^ ds.length + decimalValue ds =
        n * 10 ^ (c :: ds).length + decimalValue (c :: ds) := by
      rw [List.length_cons, Nat.pow_succ', decimalValue, show '0'.toNat = 48 from rfl]
      rw [Nat.add_mul, Nat.mul_comm 10 n, Nat.mul_assoc, Nat.add_assoc]
    simp only [parseDigits, digitValue_of_isDigit hc, ih hds, hvalue]

theorem isDigit_of_parseDigits {ds : List Char} {n v : Nat} (h : parseDigits n ds = some v) :
    ∀ c ∈ ds, IsDigit c := by
  induction ds generalizing n with
  | nil => nofun
  | cons c ds ih =>
    simp only [parseDigits] at h
    split at h
    · cases h
    next d hd => exact List.forall_mem_cons.2 ⟨isDigit_of_digitValue hd, ih h⟩

theorem parseNatural_of_isDigit {ds : List Char} (hne : ds ≠ []) (h : ∀ c ∈ ds, IsDigit c) :
    parseNatural ds = some (decimalValue ds) := by
  cases ds with
  | nil => exact absurd rfl hne
  | cons c ds => simpa [parseNatural] using parseDigits_of_isDigit h 0

theorem isDigit_of_parseNatural {ds : List Char} {v : Nat} (h : parseNatural ds = some v) :
    ds ≠ [] ∧ ∀ c ∈ ds, IsDigit c := by
  cases ds with
  | nil => cases h
  | cons c ds => exact ⟨List.cons_ne_nil _ _, isDigit_of_parseDigits h⟩

/-! ### Integers -/

theorem parseInteger_of_isDigit {ds : List Char} (hne : ds ≠ []) (h : ∀ c ∈ ds, IsDigit c) :
    parseInteger ds = some (decimalValue ds : Int) ∧ parseInteger ('-' :: ds) = some (-(decimalValue ds : Int)) := by
  have hnat := parseNatural_of_isDigit hne h
  refine ⟨?_, by rw [parseInteger, hnat, Option.map_some]⟩
  unfold parseInteger
  split
  · exact absurd (h '-' List.mem_cons_self) (by decide)
  · rw [hnat, Option.map_some]

/-- The shape of every text the reader of one integer accepts. -/
theorem digits_of_parseInteger {cs : List Char} {v : Int} (h : parseInteger cs = some v) :
    ∃ ds : List Char, ds ≠ [] ∧ (∀ c ∈ ds, IsDigit c) ∧ (cs = ds ∨ cs = '-' :: ds) := by
  unfold parseInteger at h
  split at h
  next ds =>
    obtain ⟨n, hn, -⟩ := Option.map_eq_some_iff.1 h
    obtain ⟨hne, hds⟩ := isDigit_of_parseNatural hn
    exact ⟨ds, hne, hds, .inr rfl⟩
  next =>
    obtain ⟨n, hn, -⟩ := Option.map_eq_some_iff.1 h
    obtain ⟨hne, hds⟩ := isDigit_of_parseNatural hn
    exact ⟨cs, hne, hds, .inl rfl⟩

/-! ### White space -/

theorem isImageSpace_iff {c : Char} : isImageSpace c = true ↔ c ∈ [' ', '\t', '\n', '\r'] := by
  simp [isImageSpace, or_assoc]

/-- A digit is no white space: its code is above that of every white-space character. -/
theorem isImageSpace_of_isDigit {c : Char} (h : IsDigit c) : isImageSpace c = false := by
  rw [← Bool.not_eq_true, isImageSpace_iff]
  intro hc
  simp only [List.mem_cons, List.not_mem_nil, or_false] at hc
  rcases hc with rfl | rfl | rfl | rfl <;> exact absurd h (by decide)

/-- An integer is not empty and holds no white space. -/
theorem not_isImageSpace_of_parseInteger {cs : List Char} {v : Int} (h : parseInteger cs = some v) :
    cs ≠ [] ∧ ∀ c ∈ cs, isImageSpace c = false := by
  obtain ⟨ds, hne, hds, rfl | rfl⟩ := digits_of_parseInteger h
  · exact ⟨hne, fun c hc => isImageSpace_of_isDigit (hds c hc)⟩
  · exact ⟨List.cons_ne_nil _ _, List.forall_mem_cons.2 ⟨rfl, fun c hc => isImageSpace_of_isDigit (hds c hc)⟩⟩

theorem isImageSpace_of_mem_takeWhile {cs : List Char} {c : Char} (h : c ∈ cs.takeWhile isImageSpace) :
    isImageSpace c = true :=
  List.all_eq_true.1 List.all_takeWhile c h

/-- An item is its trimmed text with white space around it. -/
theorem exists_trimItem (item : List Char) :
    ∃ before behind : List Char, item = before ++ trimItem item ++ behind ∧
      ∀ c, c ∈ before ∨ c ∈ behind → isImageSpace c = true := by
  refine ⟨item.takeWhile isImageSpace, ((item.dropWhile isImageSpace).reverse.takeWhile isImageSpace).reverse,
    ?_, ?_⟩
  · rw [List.append_assoc, trimItem, ← List.reverse_append, List.takeWhile_append_dropWhile, List.reverse_reverse,
      List.takeWhile_append_dropWhile]
  · rintro c (hc | hc)
    · exact isImageSpace_of_mem_takeWhile hc
    · exact isImageSpace_of_mem_takeWhile (List.mem_reverse.1 hc)

/-- Leading white space is dropped up to a text that is not empty and holds none. -/
theorem dropWhile_isImageSpace {before cs : List Char} (behind : List Char)
    (hbefore : ∀ c ∈ before, isImageSpace c = true) (hne : cs ≠ []) (hcs : ∀ c ∈ cs, isImageSpace c = false) :
    (before ++ (cs ++ behind)).dropWhile isImageSpace = cs ++ behind := by
  cases cs with
  | nil => exact absurd rfl hne
  | cons c cs =>
    rw [List.dropWhile_append_of_pos hbefore, List.cons_append,
      List.dropWhile_cons_of_neg (by simp [hcs c List.mem_cons_self])]

/-- Trimming takes off exactly the white space around such a text. -/
theorem trimItem_append {before cs behind : List Char}
    (hspace : ∀ c, c ∈ before ∨ c ∈ behind → isImageSpace c = true) (hne : cs ≠ [])
    (hcs : ∀ c ∈ cs, isImageSpace c = false) : trimItem (before ++ cs ++ behind) = cs := by
  have hback := dropWhile_isImageSpace (before := behind.reverse) (cs := cs.reverse) []
    (fun c hc => hspace c (.inr (List.mem_reverse.1 hc))) (by simpa using hne)
    (fun c hc => hcs c (List.mem_reverse.1 hc))
  rw [List.append_nil] at hback
  rw [trimItem, List.append_assoc, dropWhile_isImageSpace behind (fun c hc => hspace c (.inl hc)) hne hcs,
    List.reverse_append, hback, List.reverse_reverse]

theorem parseItem_eq_some_iff {p : Params} {item : List Char} {v : Int} :
    parseItem p item = some v ↔ p.IsCell v ∧ parseInteger (trimItem item) = some v := by
  unfold parseItem
  cases parseInteger (trimItem item) with
  | none => simp
  | some w =>
    by_cases hw : p.IsCell w
    · simp only [if_pos hw, Option.some.injEq]
      exact ⟨fun h => ⟨h ▸ hw, h⟩, And.right⟩
    · simp only [if_neg hw, Option.some.injEq]
      exact ⟨nofun, fun ⟨hv, h⟩ => absurd (h ▸ hv) hw⟩

/-- Settles O60. -/
theorem integersAreOptionalMinusAndDigits : Obligations.IntegersAreOptionalMinusAndDigits := by
  refine ⟨fun cs => ⟨fun h => ?shape, ?accepts⟩, fun ds => parseInteger_of_isDigit, fun p item v => ?item⟩
  case shape =>
    obtain ⟨v, hv⟩ := Option.isSome_iff_exists.1 h
    exact digits_of_parseInteger hv
  case accepts =>
    rintro ⟨ds, hne, hds, rfl | rfl⟩
    · rw [(parseInteger_of_isDigit hne hds).1, Option.isSome_some]
    · rw [(parseInteger_of_isDigit hne hds).2, Option.isSome_some]
  case item =>
    simp only [parseItem_eq_some_iff, ← isImageSpace_iff]
    refine and_congr_right fun _ => ⟨fun h => ?_, ?_⟩
    · obtain ⟨before, behind, hitem, hspace⟩ := exists_trimItem item
      exact ⟨before, trimItem item, behind, hitem, h, hspace⟩
    · rintro ⟨before, cs, behind, rfl, h, hspace⟩
      obtain ⟨hne, hcs⟩ := not_isImageSpace_of_parseInteger h
      rwa [trimItem_append hspace hne hcs]

/-! ### Construction from a text -/

theorem parseItems_isCell {p : Params} {items : List (List Char)} {image : List Int}
    (h : parseItems p items = some image) : ∀ v ∈ image, p.IsCell v := by
  induction items generalizing image with
  | nil =>
    cases h
    nofun
  | cons item items ih =>
    simp only [parseItems] at h
    split at h
    next v vs hv hvs =>
      cases h
      exact List.forall_mem_cons.2 ⟨(parseItem_eq_some_iff.1 hv).1, ih hvs⟩
    next => cases h

/-- R100: every cell of an accepted image is in the cell range. -/
theorem parseImage_isCell {p : Params} {text : List Char} {image : List Int} (h : parseImage p text = some image) :
    ∀ v ∈ image, p.IsCell v := by
  unfold parseImage at h
  split at h
  · cases h
    nofun
  · exact parseItems_isCell h

/-- Settles O45. -/
theorem constructionMeetsTheInvariant : Obligations.ConstructionMeetsTheInvariant := by
  intro p text source s hp hsource h
  obtain ⟨image, himage, rfl⟩ := Option.map_eq_some_iff.1 h
  exact State.construct_inv hp (parseImage_isCell himage) hsource

end Sys2Proof.Machine
end
